-- ==== Sys2Proof/Word.lean ====
section
/-! DEFINITION. The one word type of the machine: every architectural value (register, program counter, flag register,
RAM cell, operand, address) is an unsigned byte (spec 00 R6). Bit 0 is the least significant bit (00 R5). -/

namespace Sys2Proof

/-- An unsigned 8-bit value, 0 to 255 (00 R6). -/
abbrev Byte := BitVec 8

end Sys2Proof
end

