-- ==== Sys2Proof/Config.lean ====
section
/-! DEFINITION. The fixed parameters of the hardware (spec 00 R4). The machine has no free value (spec 93, part 1), so
nothing here is opaque. The opcode assignment OPC, the one parameter the spec leaves open, stands in Sys2Proof/Decode.lean. -/

namespace Sys2Proof.Config

/-- `NREG`: the number of general registers (00 R4, 10 R11). -/
def numRegs : Nat := 8

/-- `MEMSIZE`: the number of RAM cells (00 R4, 20 R30). -/
def memSize : Nat := 256

/-- `PC_RESET`: the reset vector (00 R4, 70 R181). -/
def pcReset : Byte := 0x00

/-- `R7_RESET`: the reset value of register 7 (00 R4, 10 R12). -/
def r7Reset : Byte := 0xF4

/-- What a RAM cell holds after reset (10 R24, 70 R180). -/
def ramReset : Byte := 0x00

end Sys2Proof.Config
end

