-- ==== Sys2Proof/Syntax.lean ====
section
/-! DEFINITION. The nine instructions, one constructor per row of spec/opcode_table.json, in the table's order. An
operand is the byte as it stands in memory (spec 30 R54): a register operand byte above 7 is part of an instruction the
machine fetches and dispatches, and its dispatch raises RegIndexFault (60 R152), so it is kept and not cut to 3 bits. -/

namespace Sys2Proof

/-- The instruction set (30 R55). `a` and `b` are the operand bytes A and B. -/
inductive Instr where
  /-- LDI reg, immediate (41 R90). -/
  | ldi (a imm : Byte)
  /-- PRN reg (41 R91). -/
  | prn (a : Byte)
  /-- MUL regA, regB (42 R102). -/
  | mul (a b : Byte)
  /-- ADD regA, regB (42 R103). -/
  | add (a b : Byte)
  /-- CMP regA, regB (42 R104). -/
  | cmp (a b : Byte)
  /-- JMP reg (43 R110). -/
  | jmp (a : Byte)
  /-- JEQ reg (43 R111). -/
  | jeq (a : Byte)
  /-- JNE reg (43 R112). -/
  | jne (a : Byte)
  /-- HLT (44 R120). -/
  | hlt
  deriving DecidableEq, Repr

end Sys2Proof
end

