-- ==== Sys2Proof/WellFormed.lean ====
section
/-! DEFINITION. Which instructions name only registers that exist (spec 30 R54). An ill-formed instruction still has an
encoding and a meaning: its dispatch raises RegIndexFault (60 R152). -/

namespace Sys2Proof

/-- The register operand bytes of an instruction, operand A before operand B (30 R53, R54; 60 R154). -/
def Instr.regOperands : Instr → List Byte
  | .ldi a _ => [a]
  | .prn a => [a]
  | .mul a b => [a, b]
  | .add a b => [a, b]
  | .cmp a b => [a, b]
  | .jmp a => [a]
  | .jeq a => [a]
  | .jne a => [a]
  | .hlt => []

/-- Every register operand byte is an index 0 to 7 (30 R54). -/
def Instr.wellFormed (i : Instr) : Bool :=
  i.regOperands.all fun b => decide (b.toNat < 8)

end Sys2Proof
end

