-- ==== Sys2Proof/Decode.lean ====
section
/-! DEFINITION. The encoding: the two fields of the opcode byte, the opcode assignment OPC, the decoder (total on any
bytes, rejecting by name) and, after it, the encoder (spec 30). Decoding compares the whole opcode byte (30 R59). -/

namespace Sys2Proof

/-- The nine mnemonics of the instruction table (30 R55). -/
inductive Mnemonic where
  | ldi | prn | mul | add | cmp | jmp | jeq | jne | hlt
  deriving DecidableEq, Repr

/-- The rows of the instruction table in the source's order (30 R55). -/
def Mnemonic.all : List Mnemonic := [.ldi, .prn, .mul, .add, .cmp, .jmp, .jeq, .jne, .hlt]

/-- The source's column "operand count" (30 R55, R56 K1). -/
def Mnemonic.operandCount : Mnemonic → Nat
  | .ldi | .mul | .add | .cmp => 2
  | .prn | .jmp | .jeq | .jne => 1
  | .hlt => 0

/-- The source's column "Sets PC": yes for JMP only (30 R55, R56 K2; 90 C4, C6). -/
def Mnemonic.setsPcColumn : Mnemonic → Bool
  | .jmp => true
  | .ldi | .prn | .mul | .add | .cmp | .jeq | .jne | .hlt => false

/-- The row an instruction belongs to. -/
def Instr.mnemonic : Instr → Mnemonic
  | .ldi _ _ => .ldi
  | .prn _ => .prn
  | .mul _ _ => .mul
  | .add _ _ => .add
  | .cmp _ _ => .cmp
  | .jmp _ => .jmp
  | .jeq _ => .jeq
  | .jne _ => .jne
  | .hlt => .hlt

/-- The operand bytes of an instruction in the order they stand in memory (30 R53, R62). -/
def Instr.operandBytes : Instr → List Byte
  | .ldi a imm => [a, imm]
  | .prn a => [a]
  | .mul a b => [a, b]
  | .add a b => [a, b]
  | .cmp a b => [a, b]
  | .jmp a => [a]
  | .jeq a => [a]
  | .jne a => [a]
  | .hlt => []

/-- `OPC`: the opcode byte of each instruction (30 R55, decision D1). Log entry 1. -/
def opc : Mnemonic → Byte
  | .ldi => 0x82
  | .prn => 0x47
  | .mul => 0xA2
  | .add => 0xA0
  | .cmp => 0xA7
  | .jmp => 0x54
  | .jeq => 0x45
  | .jne => 0x46
  | .hlt => 0x01

/-- `op_count = instruction >> 6`, bits 7:6 of the opcode byte (30 R51; 40 R72). -/
def opCount (ir : Byte) : Nat := (ir >>> 6).toNat

/-- `sets_pc = (instruction >> 4) & 1`, bit 4 of the opcode byte (30 R51; 40 R72). -/
def setsPc (ir : Byte) : Bool := ir.getLsbD 4

/-- The length of an instruction in bytes, read from its first byte alone (30 R52). -/
def instrLength (ir : Byte) : Nat := 1 + opCount ir

/-- What any opcode assignment must satisfy (30 R56): K1 the operand count, K2 bit 4, K3 the nine bytes are pairwise
different, K4 the byte 0xFF is none of them. An assignment that fails this is no configuration of this machine (93 U1). -/
structure ValidOpc (o : Mnemonic → Byte) : Prop where
  k1 : ∀ m, opCount (o m) = m.operandCount
  k2 : ∀ m, setsPc (o m) = m.setsPcColumn
  k3 : ∀ m m', o m = o m' → m = m'
  k4 : ∀ m, o m ≠ 0xFF

/-- Why the decoder gives no instruction. -/
inductive DecodeReject where
  /-- There is no byte to take for an opcode. -/
  | noBytes
  /-- The first byte is none of the nine opcode bytes (30 R57). -/
  | unknownOpcode (ir : Byte)
  /-- The opcode is known and fewer operand bytes follow than it has. -/
  | truncated (m : Mnemonic)
  deriving DecidableEq, Repr

/-- The mnemonic whose opcode byte is `ir`, by comparing all 8 bits (30 R59). -/
def mnemonicWith (o : Mnemonic → Byte) (ir : Byte) : Option Mnemonic :=
  Mnemonic.all.find? fun m => decide (o m = ir)

/-- Take the operands of `m` from the bytes after its opcode (30 R53, R54; 40 R74). -/
def takeOperands (m : Mnemonic) (bs : List Byte) : Except DecodeReject (Instr × List Byte) :=
  match m, bs with
  | .ldi, a :: imm :: rest => .ok (.ldi a imm, rest)
  | .ldi, _ => .error (.truncated .ldi)
  | .prn, a :: rest => .ok (.prn a, rest)
  | .prn, _ => .error (.truncated .prn)
  | .mul, a :: b :: rest => .ok (.mul a b, rest)
  | .mul, _ => .error (.truncated .mul)
  | .add, a :: b :: rest => .ok (.add a b, rest)
  | .add, _ => .error (.truncated .add)
  | .cmp, a :: b :: rest => .ok (.cmp a b, rest)
  | .cmp, _ => .error (.truncated .cmp)
  | .jmp, a :: rest => .ok (.jmp a, rest)
  | .jmp, _ => .error (.truncated .jmp)
  | .jeq, a :: rest => .ok (.jeq a, rest)
  | .jeq, _ => .error (.truncated .jeq)
  | .jne, a :: rest => .ok (.jne a, rest)
  | .jne, _ => .error (.truncated .jne)
  | .hlt, rest => .ok (.hlt, rest)

/-- The decoder for an opcode assignment `o`: the instruction at the head of the bytes and the bytes after it. -/
def decodeWith (o : Mnemonic → Byte) : List Byte → Except DecodeReject (Instr × List Byte)
  | [] => .error .noBytes
  | ir :: rest =>
    match mnemonicWith o ir with
    | none => .error (.unknownOpcode ir)
    | some m => takeOperands m rest

/-- The decoder of this machine, with the opcode bytes of 30 R55. -/
def decode (bs : List Byte) : Except DecodeReject (Instr × List Byte) := decodeWith opc bs

/-- The encoder for an opcode assignment `o`: the opcode byte, then the operands in the written order (30 R62). -/
def encodeWith (o : Mnemonic → Byte) (i : Instr) : List Byte := o i.mnemonic :: i.operandBytes

/-- The encoder of this machine (30 R62). -/
def encode (i : Instr) : List Byte := encodeWith opc i

/-- Assembling a program: its instructions' bytes one after another, from address 0 up (30 R62). -/
def assemble (is : List Instr) : List Byte := is.flatMap encode

/-- The three bytes, in ascending address order, of an instruction whose bits are `w` numbered from bit 0 of its first
byte; bits from `nbits` up are 0. Three bytes is the longest instruction (30 R50). -/
def tableBytes (nbits w : Nat) : List Byte :=
  let v := w % 2 ^ nbits
  [BitVec.ofNat 8 v, BitVec.ofNat 8 (v / 2 ^ 8), BitVec.ofNat 8 (v / 2 ^ 16)]

/-- The instruction this decoder reads from an instruction of the opcode table with bits `w`. -/
def decodeTableWord (nbits w : Nat) : Option Instr :=
  match decode (tableBytes nbits w) with
  | .ok (i, _) => some i
  | .error _ => none

end Sys2Proof
end

