-- ==== Sys2Proof/Machine/State.lean ====
section
/-! DEFINITION. The state record (spec 10 R10), its reset value (10 R24, 70 R180) and the reasons a step can stop. The
record holds the seven fields of 10 R10 and nothing else: "A model needs no other field". -/

namespace Sys2Proof.Machine

/-- The eight general registers R0 to R7 (10 R11): no aliases, no banks, none hard-wired. -/
structure Regs where
  r0 : Byte
  r1 : Byte
  r2 : Byte
  r3 : Byte
  r4 : Byte
  r5 : Byte
  r6 : Byte
  r7 : Byte
  deriving DecidableEq, Repr

/-- RAM (10 R18, 20 R30) as the cells that differ from the reset contents: addresses strictly rising and below 256, no
cell equal to `Config.ramReset`. `Memory.wf` in Machine/Ops.lean says so. -/
abbrev Memory := List Host.Cell

/-- The run state of the controller (10 R20). -/
inductive RunState where
  | running
  | halted
  | faulted
  deriving DecidableEq, Repr

/-- The two causes of a fatal error (60 R150). Their codes are `Cause.code` in Machine/Ops.lean. -/
inductive Cause where
  /-- `DECODE_ERROR`: the byte at pc is no known opcode (60 R151). -/
  | decodeError
  /-- `REG_INDEX`: a register operand byte is above 7 (60 R152). -/
  | regIndex
  deriving DecidableEq, Repr

/-- What a fatal error records (10 R21): the cause, the address of the faulting instruction's opcode byte, and the
offending byte. -/
structure FaultRecord where
  cause : Cause
  addr : Byte
  byte : Byte
  deriving DecidableEq, Repr

/-- The complete state of the machine (10 R10). -/
@[ext]
structure State where
  /-- The program counter (10 R13, R14). -/
  pc : Byte
  /-- The general registers (10 R11, R12). -/
  x : Regs
  /-- The RAM (10 R18). -/
  ram : Memory
  /-- The flag register: E is bit 0, G bit 1, L bit 2 (10 R15). -/
  fl : Byte
  /-- The run state (10 R20). -/
  run : RunState
  /-- The fault record, none until a fault is raised (10 R21). -/
  fault : Option FaultRecord
  /-- The values emitted by PRN so far, in order (10 R22). -/
  out : List Byte
  deriving DecidableEq, Repr

/-- The machine right after reset, before the loader has written anything (10 R24, 70 R180). -/
def State.reset : State :=
  { pc := Config.pcReset
    x := { r0 := 0x00, r1 := 0x00, r2 := 0x00, r3 := 0x00, r4 := 0x00, r5 := 0x00, r6 := 0x00, r7 := Config.r7Reset }
    ram := []
    fl := 0x00
    run := .running
    fault := none
    out := [] }

/-- Why there is no next state. Neither reason is an instruction's: a fatal error of the hardware is a next state with
`run = faulted` (60 R155). Log entry 2. -/
inductive Fault where
  /-- Raised by `cycleWith` in a state with `run = halted`: "the machine has no step at all" (40 R70). Safe: the hardware
  does nothing there, so no claim about a next state can be proved. -/
  | noStepHalted
  /-- Raised by `cycleWith` in a state with `run = faulted`: as above (40 R70, 60 R156). Safe. -/
  | noStepFaulted
  deriving DecidableEq, Repr

/-- What the model gives no meaning to. -/
inductive Refusal where
  /-- Raised by an arm of `exec` whose instruction has no meaning yet. Safe. No arm uses it. -/
  | notModelled (mnemonic : String)
  /-- Raised by `launch` for an image of more than 256 bytes: it has no launch state (50 R132, decision D11). Safe. No
  instruction and no step raises it. -/
  | imageTooLong (len : Nat)
  deriving DecidableEq, Repr

end Sys2Proof.Machine
end

