-- ==== Sys2Proof/Machine/Ops.lean ====
section
/-! DEFINITION. The named operations over registers, memory, flags, output and run state (the primitives of spec 00 R7),
the program counter's auto-advance (40 R76) and taking an exception (60 R155). There is no return from an exception
(60 R156), so no operation stands beside it. -/

namespace Sys2Proof.Machine

/-- An exact number reduced modulo 256 (00 R6). -/
def wrap (n : Nat) : Byte := BitVec.ofNat 8 n

/-- The value of general register `r`: `x[r]` (00 R7). -/
def Regs.get (x : Regs) (r : Fin 8) : Byte :=
  match r with
  | 0 => x.r0
  | 1 => x.r1
  | 2 => x.r2
  | 3 => x.r3
  | 4 => x.r4
  | 5 => x.r5
  | 6 => x.r6
  | 7 => x.r7

/-- The register file with general register `r` holding `v`. -/
def Regs.set (x : Regs) (r : Fin 8) (v : Byte) : Regs :=
  match r with
  | 0 => { x with r0 := v }
  | 1 => { x with r1 := v }
  | 2 => { x with r2 := v }
  | 3 => { x with r3 := v }
  | 4 => { x with r4 := v }
  | 5 => { x with r5 := v }
  | 6 => { x with r6 := v }
  | 7 => { x with r7 := v }

/-- What a RAM cell reads as when the list does not hold its address: the reset contents (10 R24). -/
def Memory.unlisted : Byte := Config.ramReset

/-- Every address of the list is at least `lo` and below the memory's size, addresses rise strictly, and no cell equals
`Memory.unlisted`. -/
def Memory.wfFrom (lo : Nat) : Memory → Bool
  | [] => true
  | (k, v) :: m => decide (lo ≤ k) && decide (k < Config.memSize) && decide (v ≠ Memory.unlisted) && Memory.wfFrom (k + 1) m

/-- The canonical form of a memory. -/
def Memory.wf (m : Memory) : Bool := Memory.wfFrom 0 m

/-- The cell at an address. -/
def Memory.read (m : Memory) (a : Nat) : Byte :=
  match m with
  | [] => Memory.unlisted
  | (k, v) :: rest => if k = a then v else Memory.read rest a

/-- Put a cell in front of a list, unless it holds what an unlisted address reads as. -/
def Memory.consCell (a : Nat) (v : Byte) (m : Memory) : Memory :=
  if v = Memory.unlisted then m else (a, v) :: m

/-- The memory with the cell at an address replaced, in canonical form again. -/
def Memory.write (m : Memory) (a : Nat) (v : Byte) : Memory :=
  match m with
  | [] => Memory.consCell a v []
  | (k, w) :: rest =>
    if a < k then Memory.consCell a v ((k, w) :: rest)
    else if a = k then Memory.consCell a v rest
    else (k, w) :: Memory.write rest a v

/-- `MemRead(addr, 1)`: the byte at a RAM cell; every address exists and no read fails (20 R30, R31). -/
def State.readByte (s : State) (a : Byte) : Byte := Memory.read s.ram a.toNat

/-- `MemWrite(addr, 1, v)`: store a byte at a RAM cell (20 R32). Used by the loader and by `initialize` only (20 R33). -/
def State.writeByte (s : State) (a v : Byte) : State := { s with ram := Memory.write s.ram a.toNat v }

/-- `x[r]`. -/
def State.getReg (s : State) (r : Fin 8) : Byte := s.x.get r

/-- `x[r] <- v`. -/
def State.setReg (s : State) (r : Fin 8) (v : Byte) : State := { s with x := s.x.set r v }

/-- `pc <- t`. -/
def State.setPc (s : State) (t : Byte) : State := { s with pc := t }

/-- `fl <- v`, the whole byte (10 R16). -/
def State.setFl (s : State) (v : Byte) : State := { s with fl := v }

/-- `run <- r`. -/
def State.setRun (s : State) (r : RunState) : State := { s with run := r }

/-- `Emit(v)`: append a byte to the output trace (10 R22, 50 R133). -/
def State.emit (s : State) (v : Byte) : State := { s with out := s.out ++ [v] }

/-- Item 5 of the cycle for an instruction with opcode byte `ir`, from the pc its effect left (40 R76): nothing when bit 4
is set, else `pc <- (pc + op_count + 1) mod 256`. -/
def State.autoAdvance (s : State) (ir : Byte) : State :=
  if setsPc ir then s else s.setPc (wrap (s.pc.toNat + opCount ir + 1))

/-- The number of a cause in `fault.cause` (10 R21, 60 R150, decision D17). -/
def Cause.code : Cause → Nat
  | .decodeError => 1
  | .regIndex => 2

/-- Taking an exception: `fault <- (cause, addr, byte); run <- FAULTED`, and nothing else (60 R151, R152, R155). -/
def State.raiseFault (s : State) (cause : Cause) (addr byte : Byte) : State :=
  { s with run := .faulted, fault := some { cause := cause, addr := addr, byte := byte } }

/-- Write bytes at consecutive addresses from `a` up, modulo 256. -/
def State.placeBytes (s : State) (a : Nat) (bs : List Byte) : State :=
  match bs with
  | [] => s
  | b :: rest => State.placeBytes (s.writeByte (wrap a) b) (a + 1) rest

end Sys2Proof.Machine
end

