-- ==== Sys2Proof/Machine/Flags.lean ====
section
/-! DEFINITION. The flag register's layout and the one computation that writes it (spec 10 R15 to R17; 42 R104), in the
clearing variant with E = bit 0, G = bit 1, L = bit 2 (90 C1, C2). No other instruction computes a flag. -/

namespace Sys2Proof.Machine

/-- `fl` with only E set. -/
def flE : Byte := 0x01

/-- `fl` with only G set. -/
def flG : Byte := 0x02

/-- `fl` with only L set. -/
def flL : Byte := 0x04

/-- The Equal bit, the only one an instruction reads (10 R16). -/
def flagE (fl : Byte) : Bool := fl.getLsbD 0

/-- The Greater-than bit. -/
def flagG (fl : Byte) : Bool := fl.getLsbD 1

/-- The Less-than bit. -/
def flagL (fl : Byte) : Bool := fl.getLsbD 2

/-- COMPARE: the whole new flag byte for two register values, compared unsigned (42 R101, R104). -/
def compareFlags (u v : Byte) : Byte :=
  if u = v then flE else if u.toNat < v.toNat then flL else flG

end Sys2Proof.Machine
end

