-- ==== Sys2Proof/Machine/Operands.lean ====
section
/-! DEFINITION. The two operand forms (spec 30 R54): an immediate byte, used unchanged, and a register operand byte with
the check `reg(b)` of 00 R7. There is no other form: no memory operand, no pc-relative offset, no implicit register. -/

namespace Sys2Proof.Machine

/-- An immediate operand: the byte itself (30 R54 (a)). -/
def immediate (b : Byte) : Byte := b

/-- The register a register operand byte selects: 0 to 7 select R0 to R7, a byte above 7 selects none (30 R54 (b)). -/
def regIndex (b : Byte) : Option (Fin 8) :=
  if h : b.toNat < 8 then some ⟨b.toNat, h⟩ else none

/-- One register operand: check it, then go on with the register. A byte above 7 raises RegIndexFault(pc, byte) and the
instruction has no other effect (30 R54, 60 R152). `s` is the state before the instruction, so its pc is the address of
the opcode byte. -/
def State.withReg (s : State) (a : Byte) (k : Fin 8 → State) : State :=
  match regIndex a with
  | some r => k r
  | none => s.raiseFault .regIndex s.pc a

/-- Two register operands: operand A is checked before operand B, both before anything is written (60 R154). -/
def State.withRegs (s : State) (a b : Byte) (k : Fin 8 → Fin 8 → State) : State :=
  s.withReg a fun ra => s.withReg b fun rb => k ra rb

end Sys2Proof.Machine
end

