-- ==== Sys2Proof/Machine/Alu.lean ====
section
/-! DEFINITION. The byte ALU and MUL, ADD, CMP (spec 42). The ALU reads two registers and writes the first of them
(MULTIPLY, ADD) or the flag register (COMPARE), and nothing else (42 R100; 90 C8). -/

namespace Sys2Proof.Machine

/-- MULTIPLY: the low byte of the unsigned product (42 R101). -/
def aluMul (u v : Byte) : Byte := wrap (u.toNat * v.toNat)

/-- ADD: the low byte of the unsigned sum (42 R101). -/
def aluAdd (u v : Byte) : Byte := wrap (u.toNat + v.toNat)

/-- MUL regA, regB (42 R102). -/
def execMul (a b : Byte) (s : State) : Host.Outcome State Fault Refusal :=
  .next (s.withRegs a b fun ra rb =>
    (s.setReg ra (aluMul (s.getReg ra) (s.getReg rb))).autoAdvance (opc .mul))

/-- ADD regA, regB (42 R103). -/
def execAdd (a b : Byte) (s : State) : Host.Outcome State Fault Refusal :=
  .next (s.withRegs a b fun ra rb =>
    (s.setReg ra (aluAdd (s.getReg ra) (s.getReg rb))).autoAdvance (opc .add))

/-- CMP regA, regB: compares two register values, not a register with a raw operand byte (42 R104; 90 C3). -/
def execCmp (a b : Byte) (s : State) : Host.Outcome State Fault Refusal :=
  .next (s.withRegs a b fun ra rb =>
    (s.setFl (compareFlags (s.getReg ra) (s.getReg rb))).autoAdvance (opc .cmp))

end Sys2Proof.Machine
end

