-- ==== Sys2Proof/Machine/Halt.lean ====
section
/-! DEFINITION. HLT (spec 44 R120), the only instruction of a system kind (44 R121). -/

namespace Sys2Proof.Machine

/-- HLT: the run ends; the auto-advance applies to it as to any instruction with bit 4 clear (44 R120, decision D5). -/
def execHlt (s : State) : Host.Outcome State Fault Refusal :=
  .next ((s.setRun .halted).autoAdvance (opc .hlt))

end Sys2Proof.Machine
end

