-- ==== Sys2Proof/Machine/Jumps.lean ====
section
/-! DEFINITION. JMP, JEQ and JNE (spec 43). JEQ and JNE have bit 4 of their opcode clear, so the engine adds 2 to the pc
their effect left, taken or not (43 R111, R112, R114; 90 C4). -/

namespace Sys2Proof.Machine

/-- The effect of a conditional jump on register `r`: to the register's value when taken, else past its own two bytes. -/
def State.jumpIf (s : State) (taken : Bool) (r : Fin 8) : State :=
  s.setPc (if taken then s.getReg r else wrap (s.pc.toNat + 2))

/-- JMP reg (43 R110). Its opcode has bit 4 set, so the auto-advance adds nothing. -/
def execJmp (a : Byte) (s : State) : Host.Outcome State Fault Refusal :=
  .next (s.withReg a fun r => (s.setPc (s.getReg r)).autoAdvance (opc .jmp))

/-- JEQ reg (43 R111). -/
def execJeq (a : Byte) (s : State) : Host.Outcome State Fault Refusal :=
  .next (s.withReg a fun r => (s.jumpIf (flagE s.fl) r).autoAdvance (opc .jeq))

/-- JNE reg (43 R112). -/
def execJne (a : Byte) (s : State) : Host.Outcome State Fault Refusal :=
  .next (s.withReg a fun r => (s.jumpIf (!flagE s.fl) r).autoAdvance (opc .jne))

end Sys2Proof.Machine
end

