-- ==== Sys2Proof/Machine/LoadPrint.lean ====
section
/-! DEFINITION. LDI and PRN (spec 41 R90, R91). Each meaning is the effect (item 4 of the cycle), then the engine's
auto-advance (item 5). The hardware has no load and no store (41 R92). -/

namespace Sys2Proof.Machine

/-- LDI reg, immediate (41 R90). -/
def execLdi (a imm : Byte) (s : State) : Host.Outcome State Fault Refusal :=
  .next (s.withReg a fun r => (s.setReg r (immediate imm)).autoAdvance (opc .ldi))

/-- PRN reg (41 R91). -/
def execPrn (a : Byte) (s : State) : Host.Outcome State Fault Refusal :=
  .next (s.withReg a fun r => (s.emit (s.getReg r)).autoAdvance (opc .prn))

end Sys2Proof.Machine
end

