-- ==== Sys2Proof/Machine/Engine.lean ====
section
/-! DEFINITION. The controller's cycle (spec 40): fetch, field decode, operand fetch, dispatch or DecodeError, for any
opcode assignment (10 R26); and placing an instruction where the next fetch finds it. -/

namespace Sys2Proof.Machine

/-- The bytes an instruction at the program counter is made of: its opcode byte and as many operand bytes as bits 7:6 of
that byte say, at addresses that wrap modulo 256 (40 R71, R72, R74; 20 R37). Reading has no side effect, so it cannot be
seen whether the operands of an unknown opcode are read (20 R38, 40 R73; log entry 6). -/
def State.fetchBytes (s : State) : List Byte :=
  (List.range (instrLength (s.readByte s.pc))).map fun k => s.readByte (wrap (s.pc.toNat + k))

/-- One step for an opcode assignment `o` (40 R79, R26). No step exists unless `run = RUNNING` (40 R70; log entry 2). A
byte at the program counter that is no opcode raises DecodeError(pc, byte) (40 R73, 60 R151). -/
def cycleWith (o : Mnemonic → Byte) (s : State) : Host.Outcome State Fault Refusal :=
  match s.run with
  | .halted => .fault .noStepHalted
  | .faulted => .fault .noStepFaulted
  | .running =>
    match decodeWith o s.fetchBytes with
    | .ok (i, _) => exec i s
    | .error _ => .next (s.raiseFault .decodeError s.pc (s.readByte s.pc))

/-- `s` with the instruction whose bits are `w` (numbered from bit 0 of its first byte; bits from `nbits` up are 0) in the
three cells from the program counter up, where the next step fetches it. -/
def State.placeWord (s : State) (nbits w : Nat) : State :=
  s.placeBytes s.pc.toNat (tableBytes nbits w)

end Sys2Proof.Machine
end

