-- ==== Sys2Proof/Machine/Step.lean ====
section
/-! DEFINITION. The step of this machine: the controller's cycle with the opcode bytes of spec 30 R55. -/

namespace Sys2Proof.Machine

/-- One step (40 R79). -/
def step (s : State) : Host.Outcome State Fault Refusal := Sys2Proof.Machine.cycleWith Sys2Proof.opc s

/-- `s` with an instruction of the opcode table stored in the cells from the program counter up. Only RAM changes: a
machine that is not RUNNING stays so, since only reset leaves HALTED and FAULTED (10 R20). Log entry 4. -/
def State.withFetchWord (s : State) (nbits w : Nat) : State := s.placeWord nbits w

end Sys2Proof.Machine
end

