-- ==== Sys2Proof/Machine/Boundary.lean ====
section
/-! DEFINITION. What crosses the block's boundary (spec 50 R130): reset, the loader port, the output port and the status
port. None of these is a step (92 D14, D18; log entry 4). -/

namespace Sys2Proof.Machine

/-- `for i in 0..7: x[i] <- 0` (70 R180). -/
def State.zeroRegs (s : State) : State :=
  { s with x := { r0 := 0, r1 := 0, r2 := 0, r3 := 0, r4 := 0, r5 := 0, r6 := 0, r7 := 0 } }

/-- `for a in 0..255: ram[a] <- 0` (70 R180). -/
def State.zeroRam (s : State) : State :=
  s.placeBytes 0 (List.replicate Config.memSize Config.ramReset)

/-- The reset input: `initialize()` from any state, written as 70 R180 writes it. -/
def State.initialize (s : State) : State :=
  let z := (s.zeroRegs.zeroRam.setReg 7 Config.r7Reset).setPc Config.pcReset
  { z with fl := 0, run := .running, fault := none, out := [] }

/-- `Load(image)`: for each `i`, `MemWrite(i, 1, image[i])` (50 R131). -/
def State.load (s : State) (image : List Byte) : State := s.placeBytes 0 image

/-- `Launch(image)`: the state the first step of a run is taken in (70 R182). An image of more than 256 bytes is refused:
it is neither truncated nor wrapped (50 R132, decision D11). -/
def launch (image : List Byte) : Host.Outcome State Fault Refusal :=
  if image.length ≤ Config.memSize then .next (State.reset.load image) else .refused (.imageTooLong image.length)

/-- The process status a wrapper makes of the run state: none while running, 0 for HALTED, 2 for FAULTED with either cause
(50 R134, decision D12). -/
def State.exitStatus (s : State) : Option Nat :=
  match s.run with
  | .running => none
  | .halted => some 0
  | .faulted => some 2

/-- What the status port shows of the fault record: the cause's number, the address and the byte (10 R21, 50 R134). -/
def State.faultReport (s : State) : Option (Nat × Byte × Byte) :=
  s.fault.map fun f => (f.cause.code, f.addr, f.byte)

/-- The character of a decimal digit. -/
def digitChar (d : Nat) : Char := Char.ofNat (48 + d)

/-- The minimal decimal numeral of a byte: no sign, no padding, no leading zero (50 R133, decision D8). -/
def decimalDigits (v : Byte) : List Nat :=
  let n := v.toNat
  if n < 10 then [n]
  else if n < 100 then [n / 10, n % 10]
  else [n / 100, n / 10 % 10, n % 10]

/-- A register operand in assembly: `R0` to `R7`, or nothing for a byte above 7 (30 R60). -/
def registerText (b : Byte) : Option (List Char) :=
  if b.toNat < 8 then some ['R', digitChar b.toNat] else none

/-- An immediate operand in assembly, in decimal (30 R60). -/
def immediateText (b : Byte) : List Char := (decimalDigits b).map digitChar

/-- A mnemonic and two operands in assembly, separated by a comma (30 R60). -/
def twoOperandText (m : List Char) (a b : Option (List Char)) : Option (List Char) :=
  match a, b with
  | some a, some b => some (m ++ [' '] ++ a ++ [','] ++ b)
  | _, _ => none

/-- A mnemonic and one operand in assembly (30 R60). -/
def oneOperandText (m : List Char) (a : Option (List Char)) : Option (List Char) := a.map fun a => m ++ [' '] ++ a

/-- The assembly form of an instruction, with immediates in decimal (30 R60, decision D16); an instruction that names no
register that exists has none. -/
def asmText : Instr → Option (List Char)
  | .ldi a imm => twoOperandText ['L', 'D', 'I'] (registerText a) (some (immediateText imm))
  | .prn a => oneOperandText ['P', 'R', 'N'] (registerText a)
  | .mul a b => twoOperandText ['M', 'U', 'L'] (registerText a) (registerText b)
  | .add a b => twoOperandText ['A', 'D', 'D'] (registerText a) (registerText b)
  | .cmp a b => twoOperandText ['C', 'M', 'P'] (registerText a) (registerText b)
  | .jmp a => oneOperandText ['J', 'M', 'P'] (registerText a)
  | .jeq a => oneOperandText ['J', 'E', 'Q'] (registerText a)
  | .jne a => oneOperandText ['J', 'N', 'E'] (registerText a)
  | .hlt => some ['H', 'L', 'T']

/-- The text of one output transaction: the numeral and one newline (41 R91, 50 R133). -/
def decimalLine (v : Byte) : List Char := (decimalDigits v).map digitChar ++ ['\n']

/-- The text of the whole output trace, one line per executed PRN (50 R133). -/
def State.outText (s : State) : List Char := s.out.flatMap decimalLine

end Sys2Proof.Machine
end

