-- ==== Sys2Proof/Safety.lean ====
section
/-! DEFINITION. The terms claims about a run use: the next state of an outcome, what it means that memory or everything
but the program counter is unchanged, the machine's invariant, and the normal end of a run (spec 60 R155). -/

namespace Sys2Proof.Machine

/-- The next state of an outcome, if it has one. -/
def nextOf (o : Host.Outcome State Fault Refusal) : Option State :=
  match o with
  | .next s => some s
  | .fault _ => none
  | .refused _ => none

/-- Apply a function to an outcome's next state. -/
def mapNext (f : State → State) (o : Host.Outcome State Fault Refusal) : Host.Outcome State Fault Refusal :=
  match o with
  | .next s => .next (f s)
  | .fault r => .fault r
  | .refused r => .refused r

/-- Every byte of RAM reads the same in both states. -/
def SameMemory (s t : State) : Prop := ∀ a : Byte, t.readByte a = s.readByte a

/-- Every general register holds the same in both states. -/
def SameRegs (s t : State) : Prop := ∀ r : Fin 8, t.getReg r = s.getReg r

/-- Every general register but those whose index is `n` holds the same in both states. -/
def SameRegsBut (n : Nat) (s t : State) : Prop := ∀ r : Fin 8, r.val ≠ n → t.getReg r = s.getReg r

/-- The bytes `bs` stand in RAM from the program counter up, at addresses that wrap modulo 256 (30 R50; 20 R35, R37). -/
def State.BytesAtPc (s : State) (bs : List Byte) : Prop :=
  ∀ (k : Nat) (h : k < bs.length), bs[k] = s.readByte (wrap (s.pc.toNat + k))

/-- A register operand byte with the names of registers `r` and `q` exchanged. A byte that names neither stays. -/
def swapOperand (r q : Fin 8) (b : Byte) : Byte :=
  if b.toNat = r.val then wrap q.val else if b.toNat = q.val then wrap r.val else b

/-- An instruction with the names of registers `r` and `q` exchanged in its register operands. -/
def swapInstr (r q : Fin 8) : Instr → Instr
  | .ldi a imm => .ldi (swapOperand r q a) imm
  | .prn a => .prn (swapOperand r q a)
  | .mul a b => .mul (swapOperand r q a) (swapOperand r q b)
  | .add a b => .add (swapOperand r q a) (swapOperand r q b)
  | .cmp a b => .cmp (swapOperand r q a) (swapOperand r q b)
  | .jmp a => .jmp (swapOperand r q a)
  | .jeq a => .jeq (swapOperand r q a)
  | .jne a => .jne (swapOperand r q a)
  | .hlt => .hlt

/-- A state with the contents of registers `r` and `q` exchanged. -/
def State.swapRegs (r q : Fin 8) (s : State) : State :=
  (s.setReg r (s.getReg q)).setReg q (s.getReg r)

/-- What every state a run reaches satisfies. -/
structure State.Inv (s : State) : Prop where
  /-- RAM is in canonical form, the model's own representation (DESIGN CHOICE, log entry 7). -/
  ramCanonical : Memory.wf s.ram = true
  /-- The flag register holds one of its four values (10 R17, which the spec marks derived). -/
  flagLegal : s.fl = 0x00 ∨ s.fl = 0x01 ∨ s.fl = 0x02 ∨ s.fl = 0x04
  /-- The fault record is non-empty if and only if the run state is FAULTED (10 R21). -/
  faultIff : s.fault.isSome = true ↔ s.run = .faulted
  /-- A fault record tells the truth: the pc still addresses the faulting instruction, and the byte is an unknown opcode
  standing there, or a register operand byte above 7 that is one of that instruction's operand bytes (10 R21, 60 R150). -/
  faultTrue : ∀ f, s.fault = some f →
    f.addr = s.pc ∧
    (f.cause = .decodeError → f.byte = s.readByte s.pc ∧ mnemonicWith opc f.byte = none) ∧
    (f.cause = .regIndex → 7 < f.byte.toNat ∧ f.byte ∈ s.fetchBytes.tail)
  /-- A halted machine has its pc just past an HLT (44 R120). -/
  haltedPastHlt : s.run = .halted → s.readByte (wrap (s.pc.toNat + 255)) = opc .hlt

/-- The normal end of a run: HALTED, with nothing in the fault record. A faulted state is never a successful end (60 R155). -/
def State.NormalEnd (s : State) : Prop := s.run = .halted ∧ s.fault = none

end Sys2Proof.Machine
end

