-- ==== Sys2Proof/Certificates/Slice0/Obligations.lean ====
section
/-! DEFINITION. The statements for the provers. "Source" is what the spec quotes from its source; a clause that rests on one
of the spec's own decisions (spec/92_eei_decisions.md) names it, and log entry 5 lists how each may differ from hardware. -/

open Sys2Proof Sys2Proof.Machine

/-! ### Encoding (spec 30) -/

/-- One instruction of each mnemonic, its bytes written out from the formats of 30 section 1 and the opcode bytes of the
table, which are the spec's decision D1 (log entry 1), decodes to the instruction it stands for. -/
def Obligations.WrittenOutBytesDecode : Prop :=
  decode [0b10000010, 0b00000000, 0b00001000] = .ok (.ldi 0 8, []) ∧
  decode [0b01000111, 0b00000111, 0b00000001] = .ok (.prn 7, [0x01]) ∧
  decode [0b10100010, 0b00000000, 0b00000001] = .ok (.mul 0 1, []) ∧
  decode [0b10100000, 0b00000011, 0b00000110] = .ok (.add 3 6, []) ∧
  decode [0b10100111, 0b00000000, 0b00001000] = .ok (.cmp 0 8, []) ∧
  decode [0b01010100, 0b00000100] = .ok (.jmp 4, []) ∧
  decode [0b01000101, 0b00000011] = .ok (.jeq 3, []) ∧
  decode [0b01000110, 0b00000011] = .ok (.jne 3, []) ∧
  decode [0b00000001] = .ok (.hlt, [])

/-- Every encoding, byte by byte: opcode, operand A, operand B (30 sections 1 and 5; opcode bytes by decision D1, log entry
1). -/
def Obligations.EncodingLayout : Prop :=
  ∀ a b : Byte,
    encode (.ldi a b) = [0x82, a, b] ∧ encode (.prn a) = [0x47, a] ∧ encode (.mul a b) = [0xA2, a, b] ∧
    encode (.add a b) = [0xA0, a, b] ∧ encode (.cmp a b) = [0xA7, a, b] ∧ encode (.jmp a) = [0x54, a] ∧
    encode (.jeq a) = [0x45, a] ∧ encode (.jne a) = [0x46, a] ∧ encode .hlt = [0x01]

/-- Decoding an encoded instruction gives it back, with every operand byte at every value and whatever bytes follow. -/
def Obligations.DecodeInvertsEncode : Prop :=
  ∀ (i : Instr) (rest : List Byte), decode (encode i ++ rest) = .ok (i, rest)

/-- What the decoder answers on any bytes, and only then: an instruction whose encoding stands at the head; no bytes; an
unknown opcode; a known opcode with fewer bytes after it than bits 7:6 of it say (30 R52, R57, R59; the set of known opcodes
is decision D1). -/
def Obligations.DecoderAnswers : Prop :=
  ∀ bs : List Byte,
    (∃ i rest, decode bs = .ok (i, rest) ∧ bs = encode i ++ rest) ∨
    (bs = [] ∧ decode bs = .error .noBytes) ∨
    (∃ ir tl, bs = ir :: tl ∧ decode bs = .error (.unknownOpcode ir) ∧
      ir ∉ [0x82, 0x47, 0xA2, 0xA0, 0xA7, 0x54, 0x45, 0x46, 0x01]) ∨
    (∃ m tl, bs = opc m :: tl ∧ decode bs = .error (.truncated m) ∧ tl.length < opCount (opc m))

/-- 247 of the 256 byte values are illegal opcodes, every byte with bits 7:6 = 0b11 among them, and an illegal opcode is
rejected whatever follows (30 R57, R58; which values they are rests on decision D1). -/
def Obligations.IllegalOpcodesRejected : Prop :=
  (∀ (ir : Byte) (tl : List Byte), ir ∉ [0x82, 0x47, 0xA2, 0xA0, 0xA7, 0x54, 0x45, 0x46, 0x01] →
    decode (ir :: tl) = .error (.unknownOpcode ir)) ∧
  (∀ (ir : Byte) (tl : List Byte), opCount ir = 3 → decode (ir :: tl) = .error (.unknownOpcode ir)) ∧
  ((List.range 256).filter fun n => (mnemonicWith opc (wrap n)).isNone).length = 247

/-- The two fields the engine takes of an opcode byte, for any byte: the operand count is the byte shifted right by 6, and
sets_pc is bit 4 (40 section 2, 30 section 1). What the engine does with the fetched byte's fields is LengthFromFirstByte,
AutoAdvanceAfterEffect and PcAfterStep. -/
def Obligations.OpcodeByteFields : Prop :=
  ∀ ir : Byte, opCount ir = ir.toNat / 64 ∧ opCount ir = 2 * (ir.getLsbD 7).toNat + (ir.getLsbD 6).toNat ∧
    setsPc ir = ir.getLsbD 4 ∧ (setsPc ir = true ↔ ir.toNat / 16 % 2 = 1)

/-- An instruction is as long as bits 7:6 of its first byte say, whether it is decoded, fetched or stepped over (30 section
1). That the model fetches an illegal opcode byte with as many bytes too, four in all where bits 7:6 are 0b11, is the
model's order of reading (log entry 6, DEDUCED) and no rule of the spec, by whose decision D3 an unknown opcode fetches no
operands; the two cannot be told apart. -/
def Obligations.LengthFromFirstByte : Prop :=
  (∀ (ir : Byte) (tl rest : List Byte) (i : Instr), decode (ir :: tl) = .ok (i, rest) →
    (encode i).length = 1 + ir.toNat / 64 ∧ ir.toNat / 64 ≤ tl.length ∧ rest = tl.drop (ir.toNat / 64)) ∧
  (∀ s : State, s.fetchBytes.length = 1 + (s.readByte s.pc).toNat / 64) ∧
  (∀ (s : State) (ir : Byte), setsPc ir = false →
    (s.autoAdvance ir).pc.toNat = (s.pc.toNat + (1 + ir.toNat / 64)) % 256)

/-- For any opcode assignment that meets K1 to K4 of 30 R56 (10 R26): the cycle with it executes exactly the instruction
whose encoding under it stands at the program counter, and each opcode advances the program counter as this machine's
does. -/
def Obligations.AnyAdmissibleOpcodes : Prop :=
  ∀ o : Mnemonic → Byte, ValidOpc o →
    (∀ (s : State) (i : Instr), s.run = .running → s.BytesAtPc (encodeWith o i) → cycleWith o s = exec i s) ∧
    (∀ (s : State) (m : Mnemonic), s.autoAdvance (o m) = s.autoAdvance (opc m))

/-! ### Memory (spec 20) -/

/-- 20 R32: a byte written is the byte read, and every other cell and every other field of the state is unchanged. -/
def Obligations.MemWriteThenRead : Prop :=
  ∀ (s : State) (a v : Byte), Memory.wf s.ram = true →
    (s.writeByte a v).readByte a = v ∧
    (∀ b : Byte, b ≠ a → (s.writeByte a v).readByte b = s.readByte b) ∧
    s.writeByte a v = { s with ram := (s.writeByte a v).ram }

/-- The model's choice of representation (log entry 7, DESIGN CHOICE), of which the spec says nothing: in canonical memory
the cells listed are exactly those that do not hold the reset contents 0x00 (10 section 9), each with what it reads as (20
section 1). -/
def Obligations.ListedCellsAreReads : Prop :=
  ∀ (m : Memory) (a : Nat) (v : Byte), Memory.wf m = true →
    ((a, v) ∈ m ↔ Memory.read m a = v ∧ v ≠ 0x00)

/-- The model's choice of representation (log entry 7, DESIGN CHOICE), of which the spec says nothing: two canonical
memories whose 256 cells (20 section 1) read the same are the same data. -/
def Obligations.EqualReadsEqualMemory : Prop :=
  ∀ m m' : Memory, Memory.wf m = true → Memory.wf m' = true →
    (∀ a : Byte, Memory.read m a.toNat = Memory.read m' a.toNat) → m = m'

/-! ### Reset, launch and the host (spec 70, 50) -/

/-- The reset values of 10 section 9. Those of run, fault and out are the spec's own (decisions D6, D8, D18). -/
def Obligations.ResetValues : Prop :=
  State.reset.pc = 0x00 ∧ (∀ r : Fin 8, State.reset.getReg r = if r = 7 then 0xF4 else 0x00) ∧
  State.reset.fl = 0x00 ∧ (∀ a : Byte, State.reset.readByte a = 0x00) ∧
  State.reset.run = .running ∧ State.reset.fault = none ∧ State.reset.out = []

/-- `initialize()` written as the loops of 70 section 1 gives the reset state from every state with canonical memory, so
nothing of an earlier run survives it. That reset is allowed in any run state is decision D14. -/
def Obligations.InitializeGivesReset : Prop :=
  ∀ s : State, Memory.wf s.ram = true → s.initialize = State.reset

/-- An image of at most 256 bytes launches: RAM holds the image from address 0 and zeros after it, every other field its
reset value (50 section 1, 70 section 1; decisions D10, D18). The last clause, that RAM is in canonical form, is about the
model's own representation (log entry 7, DESIGN CHOICE). -/
def Obligations.LaunchPlacesImage : Prop :=
  ∀ image : List Byte, image.length ≤ 256 →
    ∃ t, launch image = .next t ∧ (∀ a : Byte, t.readByte a = image.getD a.toNat 0x00) ∧
      t = { State.reset with ram := t.ram } ∧ Memory.wf t.ram = true

/-- A longer image is refused: it has no launch state (decision D11, 50 section 1). -/
def Obligations.LongImageRefused : Prop :=
  ∀ image : List Byte, 256 < image.length → launch image = .refused (.imageTooLong image.length)

/-- What the status port shows (50 section 1): the process status of the three run states (decision D12), and after a fault
the cause's number, 1 for DECODE_ERROR and 2 for REG_INDEX, with the address and the byte (decisions D6, D17). -/
def Obligations.StatusPortReports : Prop :=
  (∀ (s : State) (a b : Byte), (s.raiseFault .decodeError a b).faultReport = some (1, a, b) ∧
    (s.raiseFault .regIndex a b).faultReport = some (2, a, b) ∧ (s.faultReport = none ↔ s.fault = none)) ∧
  ∀ s : State, (s.exitStatus = some 0 ↔ s.run = .halted) ∧ (s.exitStatus = some 2 ↔ s.run = .faulted) ∧
    (s.exitStatus = none ↔ s.run = .running)

/-- The text of an output value is its decimal numeral in the characters '0' to '9' (codes 48 to 57), most significant digit
first, with no leading zero and at least one digit ('0' for zero), and one newline; different values have different texts
(50 section 1; minimal numeral by decision D8). -/
def Obligations.OutputTextIsDecimal : Prop :=
  (∀ v : Byte, decimalDigits v ≠ [] ∧ (decimalDigits v).foldl (fun n d => 10 * n + d) 0 = v.toNat ∧
    (∀ d ∈ decimalDigits v, d < 10) ∧ ((decimalDigits v).head? = some 0 → v = 0 ∧ decimalDigits v = [0]) ∧
    decimalLine v = (decimalDigits v).map digitChar ++ ['\n']) ∧
  (∀ d : Nat, d < 10 → (digitChar d).toNat = 48 + d) ∧
  (∀ u v : Byte, decimalLine u = decimalLine v → u = v)

/-- In the launch state of an assembled program each instruction stands at the address that is the length of what comes
before it, and a step with the program counter there executes it (30 section 5, the spec's own inference there; opcode bytes
by decision D1). -/
def Obligations.AssembledInstructionRuns : Prop :=
  ∀ (before later : List Instr) (i : Instr), (assemble (before ++ i :: later)).length ≤ 256 →
    ∃ s, launch (assemble (before ++ i :: later)) = .next s ∧
      (s.setPc (wrap (assemble before).length)).BytesAtPc (encode i) ∧
      step (s.setPc (wrap (assemble before).length)) = exec i (s.setPc (wrap (assemble before).length))

/-! ### The cycle (spec 40) -/

/-- A step has a next state exactly in the RUNNING states (40 R70, R82); a HALTED and a FAULTED machine have none, and the
model names which (log entry 2). -/
def Obligations.StepEnabledIffRunning : Prop :=
  ∀ s : State, ((∃ t, step s = .next t) ↔ s.run = .running) ∧
    (s.run = .halted → step s = .fault .noStepHalted) ∧ (s.run = .faulted → step s = .fault .noStepFaulted)

/-- When bytes that stand at the program counter decode to an instruction, the step of a RUNNING state is that instruction's
`exec`, with nothing around it: the auto-advance is inside `exec`. It holds for every instruction, also one with a register
operand byte above 7. -/
def Obligations.StepRunsDecodedInstruction : Prop :=
  ∀ (s : State) (bs rest : List Byte) (i : Instr), s.run = .running → s.BytesAtPc bs → decode bs = .ok (i, rest) →
    step s = exec i s

/-- A RUNNING step on a byte that is no opcode changes only the run state and the fault record, which gets cause
DECODE_ERROR, the pc and the byte (40 section 2, 60 section 1; the record and the state FAULTED are decisions D6, D7, D17,
the set of opcodes D1). -/
def Obligations.UnknownOpcodeTakesDecodeError : Prop :=
  ∀ s : State, s.run = .running →
    s.readByte s.pc ∉ [0x82, 0x47, 0xA2, 0xA0, 0xA7, 0x54, 0x45, 0x46, 0x01] →
    step s = .next { s with run := .faulted,
                            fault := some { cause := .decodeError, addr := s.pc, byte := s.readByte s.pc } }

/-- The bytes a step fetches: the opcode byte, and one or two operand bytes at the next addresses modulo 256 (40 section 2;
that operand addresses wrap is decision D2, log entry 5). That they are read after an illegal opcode byte too is the model's
order of reading (log entry 6, DEDUCED), which cannot be told from that of decision D3, where an unknown opcode fetches no
operands. -/
def Obligations.OperandFetchWraps : Prop :=
  ∀ s : State,
    (opCount (s.readByte s.pc) = 0 → s.fetchBytes = [s.readByte s.pc]) ∧
    (opCount (s.readByte s.pc) = 1 → s.fetchBytes =
      [s.readByte s.pc, s.readByte (BitVec.ofNat 8 ((s.pc.toNat + 1) % 256))]) ∧
    (opCount (s.readByte s.pc) = 2 → s.fetchBytes =
      [s.readByte s.pc, s.readByte (BitVec.ofNat 8 ((s.pc.toNat + 1) % 256)),
        s.readByte (BitVec.ofNat 8 ((s.pc.toNat + 2) % 256))])

/-- The auto-advance as 40 R76 gives it: with bit 4 of the opcode clear, `op_count + 1` is added modulo 256 to the pc that
the instruction's own effect left, for HLT as well (decision D5), with it set nothing is added, and a faulting instruction
is not advanced (decision D7). -/
def Obligations.AutoAdvanceAfterEffect : Prop :=
  (∀ (s : State) (ir : Byte), setsPc ir = false →
    s.autoAdvance ir = s.setPc (wrap (s.pc.toNat + opCount ir + 1))) ∧
  (∀ (s : State) (ir : Byte), setsPc ir = true → s.autoAdvance ir = s) ∧
  (∀ (i : Instr) (s : State), i.wellFormed = true →
    ∃ e : State, exec i s = .next (e.autoAdvance (opc i.mnemonic)) ∧
      ((∀ a, i ≠ .jmp a ∧ i ≠ .jeq a ∧ i ≠ .jne a) → e.pc = s.pc) ∧
      (∀ (a : Byte) (h : a.toNat < 8),
        (i = .jmp a → e.pc = s.getReg ⟨a.toNat, h⟩) ∧
        (i = .jeq a → e.pc = if s.fl.getLsbD 0 then s.getReg ⟨a.toNat, h⟩ else wrap (s.pc.toNat + 2)) ∧
        (i = .jne a → e.pc = if s.fl.getLsbD 0 then wrap (s.pc.toNat + 2) else s.getReg ⟨a.toNat, h⟩))) ∧
  (∀ (i : Instr) (s t : State), i.wellFormed = false → exec i s = .next t → t.pc = s.pc)

/-- The table of 40 section 3 for a whole step, by the opcode byte `s.readByte s.pc` and operand A: the program counter after
a step that did not fault, and the unchanged one after a step that did. Opcode bytes by D1, HLT by D5, faults by D7. -/
def Obligations.PcAfterStep : Prop :=
  ∀ s t : State, step s = .next t →
    (t.run = .faulted → t.pc = s.pc) ∧
    (t.run ≠ .faulted →
      (s.readByte s.pc ∈ [0x82, 0xA2, 0xA0, 0xA7] → t.pc.toNat = (s.pc.toNat + 3) % 256) ∧
      (s.readByte s.pc = 0x47 → t.pc.toNat = (s.pc.toNat + 2) % 256) ∧
      (s.readByte s.pc = 0x01 → t.pc.toNat = (s.pc.toNat + 1) % 256 ∧ t.run = .halted) ∧
      (∀ h : (s.readByte (wrap (s.pc.toNat + 1))).toNat < 8,
        (s.readByte s.pc = 0x54 → t.pc = s.getReg ⟨_, h⟩) ∧
        (s.readByte s.pc = 0x45 → t.pc.toNat =
          (if s.fl.getLsbD 0 then (s.getReg ⟨_, h⟩).toNat + 2 else s.pc.toNat + 4) % 256) ∧
        (s.readByte s.pc = 0x46 → t.pc.toNat =
          (if s.fl.getLsbD 0 then s.pc.toNat + 4 else (s.getReg ⟨_, h⟩).toNat + 2) % 256)))

/-! ### Each instruction completes, with the result its rule gives (spec 41 to 44) -/

/-- LDI with a legal register (41 R90: effect, engine, net, flags): the register gets the immediate. -/
def Obligations.LdiCompletes : Prop :=
  ∀ (s : State) (a imm : Byte) (h : a.toNat < 8),
    ∃ t, exec (.ldi a imm) s = .next t ∧ t.getReg ⟨a.toNat, h⟩ = imm ∧ SameRegsBut a.toNat s t ∧
      t.pc.toNat = (s.pc.toNat + 3) % 256 ∧ t.fl = s.fl ∧ SameMemory s t ∧ t.run = s.run ∧ t.fault = s.fault ∧
      t.out = s.out

/-- PRN with a legal register (41 R91: effect, engine, net, flags): its value is appended to the output. -/
def Obligations.PrnCompletes : Prop :=
  ∀ (s : State) (a : Byte) (h : a.toNat < 8),
    ∃ t, exec (.prn a) s = .next t ∧ t.out = s.out ++ [s.getReg ⟨a.toNat, h⟩] ∧ SameRegs s t ∧
      t.pc.toNat = (s.pc.toNat + 2) % 256 ∧ t.fl = s.fl ∧ SameMemory s t ∧ t.run = s.run ∧ t.fault = s.fault

/-- MUL with legal registers (42 R102: effect, engine, net, flags), the same register twice included: the first gets the
low byte of the unsigned product. -/
def Obligations.MulCompletes : Prop :=
  ∀ (s : State) (a b : Byte) (ha : a.toNat < 8) (hb : b.toNat < 8),
    ∃ t, exec (.mul a b) s = .next t ∧
      (t.getReg ⟨a.toNat, ha⟩).toNat = (s.getReg ⟨a.toNat, ha⟩).toNat * (s.getReg ⟨b.toNat, hb⟩).toNat % 256 ∧
      SameRegsBut a.toNat s t ∧ t.pc.toNat = (s.pc.toNat + 3) % 256 ∧ t.fl = s.fl ∧ SameMemory s t ∧ t.run = s.run ∧
      t.fault = s.fault ∧ t.out = s.out

/-- ADD with legal registers (42 R103: effect, engine, net, flags), the same register twice included: the first gets the
sum modulo 256 and no flag records an overflow. -/
def Obligations.AddCompletes : Prop :=
  ∀ (s : State) (a b : Byte) (ha : a.toNat < 8) (hb : b.toNat < 8),
    ∃ t, exec (.add a b) s = .next t ∧
      (t.getReg ⟨a.toNat, ha⟩).toNat = ((s.getReg ⟨a.toNat, ha⟩).toNat + (s.getReg ⟨b.toNat, hb⟩).toNat) % 256 ∧
      SameRegsBut a.toNat s t ∧ t.pc.toNat = (s.pc.toNat + 3) % 256 ∧ t.fl = s.fl ∧ SameMemory s t ∧ t.run = s.run ∧
      t.fault = s.fault ∧ t.out = s.out

/-- CMP with legal registers (42 R104: effect, engine, net, flags): the flag byte is exactly one of E, L, G by the unsigned
order of the two register values, whatever it was. The clearing variant with E = bit 0, G = bit 1, L = bit 2 is the one the
source adopts (decision D15). -/
def Obligations.CmpCompletes : Prop :=
  ∀ (s : State) (a b : Byte) (ha : a.toNat < 8) (hb : b.toNat < 8),
    ∃ t, exec (.cmp a b) s = .next t ∧
      ((s.getReg ⟨a.toNat, ha⟩).toNat = (s.getReg ⟨b.toNat, hb⟩).toNat → t.fl = 0x01) ∧
      ((s.getReg ⟨a.toNat, ha⟩).toNat < (s.getReg ⟨b.toNat, hb⟩).toNat → t.fl = 0x04) ∧
      ((s.getReg ⟨b.toNat, hb⟩).toNat < (s.getReg ⟨a.toNat, ha⟩).toNat → t.fl = 0x02) ∧
      SameRegs s t ∧ t.pc.toNat = (s.pc.toNat + 3) % 256 ∧ SameMemory s t ∧ t.run = s.run ∧ t.fault = s.fault ∧
      t.out = s.out

/-- JMP with a legal register (43 R110: effect, engine, net, flags): exactly to the register's value. -/
def Obligations.JmpCompletes : Prop :=
  ∀ (s : State) (a : Byte) (h : a.toNat < 8),
    ∃ t, exec (.jmp a) s = .next t ∧ t.pc = s.getReg ⟨a.toNat, h⟩ ∧ SameRegs s t ∧ t.fl = s.fl ∧ SameMemory s t ∧
      t.run = s.run ∧ t.fault = s.fault ∧ t.out = s.out

/-- JEQ with a legal register (43 R111: effect, engine, net, flags): with E set to the register's value plus 2, with E clear
to its own address plus 4, whatever G and L are. -/
def Obligations.JeqCompletes : Prop :=
  ∀ (s : State) (a : Byte) (h : a.toNat < 8),
    ∃ t, exec (.jeq a) s = .next t ∧
      (s.fl.getLsbD 0 = true → t.pc.toNat = ((s.getReg ⟨a.toNat, h⟩).toNat + 2) % 256) ∧
      (s.fl.getLsbD 0 = false → t.pc.toNat = (s.pc.toNat + 4) % 256) ∧
      SameRegs s t ∧ t.fl = s.fl ∧ SameMemory s t ∧ t.run = s.run ∧ t.fault = s.fault ∧ t.out = s.out

/-- JNE with a legal register (43 R112: effect, engine, net, flags): with E clear to the register's value plus 2, with E set
to its own address plus 4, whatever G and L are. -/
def Obligations.JneCompletes : Prop :=
  ∀ (s : State) (a : Byte) (h : a.toNat < 8),
    ∃ t, exec (.jne a) s = .next t ∧
      (s.fl.getLsbD 0 = false → t.pc.toNat = ((s.getReg ⟨a.toNat, h⟩).toNat + 2) % 256) ∧
      (s.fl.getLsbD 0 = true → t.pc.toNat = (s.pc.toNat + 4) % 256) ∧
      SameRegs s t ∧ t.fl = s.fl ∧ SameMemory s t ∧ t.run = s.run ∧ t.fault = s.fault ∧ t.out = s.out

/-- HLT (44 R120: effect, engine, net, flags): the machine is HALTED. That its pc is advanced by 1 is decision D5. -/
def Obligations.HltCompletes : Prop :=
  ∀ s : State,
    ∃ t, exec .hlt s = .next t ∧ t.run = .halted ∧ t.pc.toNat = (s.pc.toNat + 1) % 256 ∧ SameRegs s t ∧ t.fl = s.fl ∧
      SameMemory s t ∧ t.fault = s.fault ∧ t.out = s.out

/-! ### Exceptions (spec 60) -/

/-- Decision D4 (30 section 2, 60 section 1; log entry 5): an instruction with a register operand byte above 7 changes only
the run state and the fault record, which gets cause REG_INDEX, the pc and the first such byte, operand A before B. For JEQ
and JNE the condition plays no part. -/
def Obligations.BadRegisterTakesRegIndexFault : Prop :=
  ∀ (i : Instr) (s : State) (b : Byte), i.regOperands.find? (fun c => decide (7 < c.toNat)) = some b →
    exec i s = .next { s with run := .faulted, fault := some { cause := .regIndex, addr := s.pc, byte := b } }

/-- What is not an exception (60 section 2): an instruction whose register operands are 0 to 7 never faults, whatever the
register values, the flags, the address it stands at and the result; only HLT changes the run state. -/
def Obligations.LegalOperandsNeverFault : Prop :=
  ∀ (i : Instr) (s : State), i.wellFormed = true →
    ∃ t, exec i s = .next t ∧ t.fault = s.fault ∧ t.run = if i = .hlt then .halted else s.run

/-- Exceptions are precise (60 section 2, decisions D6, D7): a step that ends FAULTED has changed the run state and the
fault record alone, and the record names the pc and either the unknown opcode there (decision D1 says which are known) or
an operand byte above 7 of a known instruction (decision D4). -/
def Obligations.FaultsArePrecise : Prop :=
  ∀ s t : State, step s = .next t → t.run = .faulted →
    ∃ c b, t = { s with run := .faulted, fault := some { cause := c, addr := s.pc, byte := b } } ∧
      ((c = .decodeError ∧ b = s.readByte s.pc ∧ mnemonicWith opc b = none) ∨
        (c = .regIndex ∧ 7 < b.toNat ∧ b ∈ s.fetchBytes.tail ∧ mnemonicWith opc (s.readByte s.pc) ≠ none))

/-- A step that ends HALTED, taken from a state that meets the invariant, reaches the normal end: the fault record is empty
(60 section 2, 10 section 6; the record is decision D6). Of the invariant, the clause on RAM is the model's choice (log
entry 7). -/
def Obligations.HaltingStepIsNormalEnd : Prop :=
  ∀ s t : State, s.Inv → step s = .next t → t.run = .halted → t.NormalEnd

/-! ### Frames -/

/-- LDI, MUL and ADD leave everything but the register operand A names and the program counter; the run state and the fault
record unless an operand is illegal (BadRegisterTakesRegIndexFault). -/
def Obligations.RegisterWriteFrame : Prop :=
  ∀ (s t : State) (a b : Byte) (i : Instr), i = .ldi a b ∨ i = .mul a b ∨ i = .add a b → exec i s = .next t →
    SameRegsBut a.toNat s t ∧ t.fl = s.fl ∧ t.out = s.out ∧ SameMemory s t ∧
      (i.wellFormed = true → t.run = s.run ∧ t.fault = s.fault)

/-- CMP leaves every register, every byte of memory and the output; its flag byte and the program counter may change; the
run state and the fault record unless an operand is illegal, and then the flag byte is left too (42 R104). -/
def Obligations.CompareFrame : Prop :=
  ∀ (s t : State) (a b : Byte), exec (.cmp a b) s = .next t →
    SameRegs s t ∧ t.out = s.out ∧ SameMemory s t ∧
      (Instr.wellFormed (.cmp a b) = true → t.run = s.run ∧ t.fault = s.fault) ∧
      (Instr.wellFormed (.cmp a b) = false → t.fl = s.fl)

/-- PRN leaves every register, every byte of memory and the flags; the output only grows by at most the one value; the run
state and the fault record unless the operand is illegal, and then the output is left too (41 R91). -/
def Obligations.PrintFrame : Prop :=
  ∀ (s t : State) (a : Byte), exec (.prn a) s = .next t →
    SameRegs s t ∧ t.fl = s.fl ∧ SameMemory s t ∧
      (Instr.wellFormed (.prn a) = true → t.run = s.run ∧ t.fault = s.fault ∧ ∃ v, t.out = s.out ++ [v]) ∧
      (Instr.wellFormed (.prn a) = false → t.out = s.out)

/-- JMP, JEQ and JNE leave everything but the program counter; the run state and the fault record unless the operand is
illegal, and then the program counter is left too (43 R110 to R112). -/
def Obligations.JumpFrame : Prop :=
  ∀ (s t : State) (a : Byte) (i : Instr), i = .jmp a ∨ i = .jeq a ∨ i = .jne a → exec i s = .next t →
    SameRegs s t ∧ t.fl = s.fl ∧ t.out = s.out ∧ SameMemory s t ∧
      (i.wellFormed = true → t.run = s.run ∧ t.fault = s.fault) ∧ (i.wellFormed = false → t.pc = s.pc)

/-- HLT leaves everything but the run state and the program counter (44 R120). -/
def Obligations.HaltFrame : Prop :=
  ∀ s t : State, exec .hlt s = .next t →
    SameRegs s t ∧ t.fl = s.fl ∧ t.out = s.out ∧ SameMemory s t ∧ t.fault = s.fault

/-! ### Flags and the ALU (spec 10, 42) -/

/-- 10 R16: only CMP writes the flag register, and it replaces the whole byte; only JEQ and JNE read it, and of it bit 0
alone; no other instruction depends on it or moves it anywhere. -/
def Obligations.FlagRegisterDiscipline : Prop :=
  (∀ (i : Instr) (s t : State), (∀ a b, i ≠ .cmp a b) → exec i s = .next t → t.fl = s.fl) ∧
  (∀ (a b v : Byte) (s : State), Instr.wellFormed (.cmp a b) = true →
    exec (.cmp a b) (s.setFl v) = exec (.cmp a b) s) ∧
  (∀ (i : Instr) (s : State) (v : Byte), (∀ a b, i ≠ .cmp a b ∧ i ≠ .jeq a ∧ i ≠ .jne a) →
    exec i (s.setFl v) = mapNext (fun t => t.setFl v) (exec i s)) ∧
  (∀ (a v : Byte) (s : State), v.getLsbD 0 = s.fl.getLsbD 0 →
    exec (.jeq a) (s.setFl v) = mapNext (fun t => t.setFl v) (exec (.jeq a) s) ∧
    exec (.jne a) (s.setFl v) = mapNext (fun t => t.setFl v) (exec (.jne a) s))

/-- The flag byte COMPARE computes from any two values: E exactly when they are equal, L when the first is smaller, G when
it is greater, unsigned, and bits 7:3 are 0 (10 R15; bits 7:3 by decision D20, the assignment by D15). -/
def Obligations.CompareBitsMatchOrder : Prop :=
  ∀ u v : Byte,
    (flagE (compareFlags u v) = true ↔ u.toNat = v.toNat) ∧ (flagG (compareFlags u v) = true ↔ v.toNat < u.toNat) ∧
    (flagL (compareFlags u v) = true ↔ u.toNat < v.toNat) ∧ (compareFlags u v).toNat < 8

/-- ADD and MULTIPLY are exact arithmetic reduced modulo 256, and their low byte is right for two's-complement readings of
the operands too (42 R101; the last part is the spec's own inference there). -/
def Obligations.AluWrapsModulo256 : Prop :=
  ∀ u v : Byte,
    (aluAdd u v).toNat = (u.toNat + v.toNat) % 256 ∧ (aluMul u v).toNat = u.toNat * v.toNat % 256 ∧
    (aluAdd u v).toInt = (u.toInt + v.toInt).bmod 256 ∧ (aluMul u v).toInt = (u.toInt * v.toInt).bmod 256

/-- A register compared with itself makes the next JEQ an unconditional branch (42 R104, the spec's own inference there). -/
def Obligations.CompareSelfThenJeqIsTaken : Prop :=
  ∀ (s : State) (a r : Byte) (_ : a.toNat < 8) (hr : r.toNat < 8),
    ∃ t u, exec (.cmp a a) s = .next t ∧ exec (.jeq r) t = .next u ∧
      u.pc.toNat = ((s.getReg ⟨r.toNat, hr⟩).toNat + 2) % 256

/-! ### Registers (spec 10) -/

/-- No instruction reads or writes a register it does not name (10 R11): a register that no operand names can hold anything,
before and after, and nothing else changes. -/
def Obligations.UnnamedRegisterIrrelevant : Prop :=
  ∀ (i : Instr) (s : State) (r : Fin 8) (v : Byte), (∀ b ∈ i.regOperands, b.toNat ≠ r.val) →
    exec i (s.setReg r v) = mapNext (fun t => t.setReg r v) (exec i s)

/-- The eight registers are alike (10 R11, R12): exchange two of them in the state and their names in the instruction, and
the outcome is exchanged; R7 is no exception. It holds for illegal operands too, which name no register. -/
def Obligations.RegistersInterchangeable : Prop :=
  ∀ (i : Instr) (s : State) (r q : Fin 8),
    exec (swapInstr r q i) (s.swapRegs r q) = mapNext (State.swapRegs r q) (exec i s)

/-- Only LDI, MUL and ADD change a register, and only the one operand A names (10 R11, 50 R138; opcode bytes by D1). -/
def Obligations.RegistersWrittenBy : Prop :=
  ∀ (s t : State) (r : Fin 8), step s = .next t → t.getReg r ≠ s.getReg r →
    s.readByte s.pc ∈ [0x82, 0xA2, 0xA0] ∧ (s.readByte (wrap (s.pc.toNat + 1))).toNat = r.val

/-! ### Whole-machine rules -/

/-- A step from a RUNNING state ends HALTED exactly when the byte at the program counter is HLT's (10 section 6, 44; the
byte is decision D1). -/
def Obligations.OnlyHltHalts : Prop :=
  ∀ s t : State, step s = .next t → (t.run = .halted ↔ s.readByte s.pc = 0x01)

/-- Output is produced by PRN alone: a step whose opcode is PRN's, with a legal operand, appends that register's value, and
every other step leaves the output (10 R22, 50 R133; the byte is decision D1). -/
def Obligations.OutputByPrnAlone : Prop :=
  ∀ s t : State, step s = .next t →
    (∀ h : (s.readByte (wrap (s.pc.toNat + 1))).toNat < 8, s.readByte s.pc = 0x47 →
      t.out = s.out ++ [s.getReg ⟨_, h⟩]) ∧
    (s.readByte s.pc ≠ 0x47 ∨ 7 < (s.readByte (wrap (s.pc.toNat + 1))).toNat → t.out = s.out)

/-- No instruction reads the output (10 R22): output already emitted can be anything and the step is otherwise the same. -/
def Obligations.OutputIsNeverRead : Prop :=
  ∀ (s : State) (l : List Byte),
    step { s with out := l ++ s.out } = mapNext (fun t => { t with out := l ++ t.out }) (step s)

/-- No instruction reads RAM as data (20 R34): the step depends on RAM only through the bytes of the instruction at the
program counter, and leaves RAM as it is (20 R33). -/
def Obligations.RamReadByFetchOnly : Prop :=
  ∀ (s : State) (m : Memory), State.fetchBytes { s with ram := m } = s.fetchBytes →
    step { s with ram := m } = mapNext (fun t => { t with ram := m }) (step s)

/-- RAM is constant along every run, from any state (20 section 1, the spec's own inference there): no instruction stores. -/
def Obligations.RunsKeepRam : Prop :=
  ∀ (n : Nat) (s t : State), Host.Core.run Sys2Proof.core n s = .next t → t.ram = s.ram

/-- Along every run, from any state, output is only appended to, at most one value a step (10 R22). -/
def Obligations.RunsOnlyAppendOutput : Prop :=
  ∀ (n : Nat) (s t : State), Host.Core.run Sys2Proof.core n s = .next t →
    ∃ l : List Byte, t.out = s.out ++ l ∧ l.length ≤ n

/-- A run need not end (40 section 3, decision D21: nothing bounds a run): a JMP (opcode byte by D1) to its own address is a
step to the same state, for any number of steps. -/
def Obligations.JumpToSelfNeverEnds : Prop :=
  ∀ (s : State) (a : Byte) (h : a.toNat < 8), s.run = .running → s.BytesAtPc [0x54, a] →
    s.getReg ⟨a.toNat, h⟩ = s.pc → ∀ n : Nat, Host.Core.run Sys2Proof.core n s = .next s

/-- The invariant holds right after reset. Its clause that RAM is in canonical form is the model's choice (log entry 7,
DESIGN CHOICE); its clause on the four flag values is 10 R17, which the spec marks derived; the fault record in it is
decision D6. -/
def Obligations.ResetMeetsInvariant : Prop :=
  State.reset.Inv

/-- Every step from a state that meets the invariant gives one that meets it: RAM stays canonical (the model's choice of
representation, log entry 7, DESIGN CHOICE), the flag register holds one of its four values (10 R17, which the spec marks
derived; decisions D15, D20), the fault record is there exactly in FAULTED and tells the truth (60 section 2, 10 section 6;
decisions D1, D4, D6, D7), a halted machine stands just past an HLT (44; decisions D1, D5). -/
def Obligations.StepsKeepInvariant : Prop :=
  ∀ s t : State, s.Inv → step s = .next t → t.Inv

/-- Every state of every run of every image that launches meets the invariant: a statement about runs from a launch state,
of which StepsKeepInvariant is the step (70 section 1; runs start at a launch state by decisions D10, D18). Its parts rest
on what they rest on there: canonical RAM on the model's choice (log entry 7, DESIGN CHOICE), the four flag values on 10
R17, which the spec marks derived, and decisions D15, D20, the fault record and the final pc on D1, D4, D5, D6, D7. -/
def Obligations.EveryRunMeetsInvariant : Prop :=
  ∀ (image : List Byte) (n : Nat) (s t : State), launch image = .next s →
    Host.Core.run Sys2Proof.core n s = .next t → t.Inv
end

