-- ==== Sys2Proof/Laws/State.lean ====
section
/-! SUPPORT. One lemma per field per update of State, all true by unfolding, so that no later proof unfolds a record
update. -/

namespace Sys2Proof.Machine

variable (s : State) (r : Fin 8) (v a t : Byte) (q : RunState) (c : Cause)

@[simp] theorem State.setReg_pc : (s.setReg r v).pc = s.pc := rfl
@[simp] theorem State.setReg_x : (s.setReg r v).x = s.x.set r v := rfl
@[simp] theorem State.setReg_ram : (s.setReg r v).ram = s.ram := rfl
@[simp] theorem State.setReg_fl : (s.setReg r v).fl = s.fl := rfl
@[simp] theorem State.setReg_run : (s.setReg r v).run = s.run := rfl
@[simp] theorem State.setReg_fault : (s.setReg r v).fault = s.fault := rfl
@[simp] theorem State.setReg_out : (s.setReg r v).out = s.out := rfl

@[simp] theorem State.setPc_pc : (s.setPc t).pc = t := rfl
@[simp] theorem State.setPc_x : (s.setPc t).x = s.x := rfl
@[simp] theorem State.setPc_ram : (s.setPc t).ram = s.ram := rfl
@[simp] theorem State.setPc_fl : (s.setPc t).fl = s.fl := rfl
@[simp] theorem State.setPc_run : (s.setPc t).run = s.run := rfl
@[simp] theorem State.setPc_fault : (s.setPc t).fault = s.fault := rfl
@[simp] theorem State.setPc_out : (s.setPc t).out = s.out := rfl

@[simp] theorem State.setFl_pc : (s.setFl v).pc = s.pc := rfl
@[simp] theorem State.setFl_x : (s.setFl v).x = s.x := rfl
@[simp] theorem State.setFl_ram : (s.setFl v).ram = s.ram := rfl
@[simp] theorem State.setFl_fl : (s.setFl v).fl = v := rfl
@[simp] theorem State.setFl_run : (s.setFl v).run = s.run := rfl
@[simp] theorem State.setFl_fault : (s.setFl v).fault = s.fault := rfl
@[simp] theorem State.setFl_out : (s.setFl v).out = s.out := rfl

@[simp] theorem State.setRun_pc : (s.setRun q).pc = s.pc := rfl
@[simp] theorem State.setRun_x : (s.setRun q).x = s.x := rfl
@[simp] theorem State.setRun_ram : (s.setRun q).ram = s.ram := rfl
@[simp] theorem State.setRun_fl : (s.setRun q).fl = s.fl := rfl
@[simp] theorem State.setRun_run : (s.setRun q).run = q := rfl
@[simp] theorem State.setRun_fault : (s.setRun q).fault = s.fault := rfl
@[simp] theorem State.setRun_out : (s.setRun q).out = s.out := rfl

@[simp] theorem State.emit_pc : (s.emit v).pc = s.pc := rfl
@[simp] theorem State.emit_x : (s.emit v).x = s.x := rfl
@[simp] theorem State.emit_ram : (s.emit v).ram = s.ram := rfl
@[simp] theorem State.emit_fl : (s.emit v).fl = s.fl := rfl
@[simp] theorem State.emit_run : (s.emit v).run = s.run := rfl
@[simp] theorem State.emit_fault : (s.emit v).fault = s.fault := rfl
@[simp] theorem State.emit_out : (s.emit v).out = s.out ++ [v] := rfl

@[simp] theorem State.writeByte_pc : (s.writeByte a v).pc = s.pc := rfl
@[simp] theorem State.writeByte_x : (s.writeByte a v).x = s.x := rfl
@[simp] theorem State.writeByte_ram : (s.writeByte a v).ram = Memory.write s.ram a.toNat v := rfl
@[simp] theorem State.writeByte_fl : (s.writeByte a v).fl = s.fl := rfl
@[simp] theorem State.writeByte_run : (s.writeByte a v).run = s.run := rfl
@[simp] theorem State.writeByte_fault : (s.writeByte a v).fault = s.fault := rfl
@[simp] theorem State.writeByte_out : (s.writeByte a v).out = s.out := rfl

@[simp] theorem State.raiseFault_pc : (s.raiseFault c a v).pc = s.pc := rfl
@[simp] theorem State.raiseFault_x : (s.raiseFault c a v).x = s.x := rfl
@[simp] theorem State.raiseFault_ram : (s.raiseFault c a v).ram = s.ram := rfl
@[simp] theorem State.raiseFault_fl : (s.raiseFault c a v).fl = s.fl := rfl
@[simp] theorem State.raiseFault_run : (s.raiseFault c a v).run = .faulted := rfl
@[simp] theorem State.raiseFault_fault :
    (s.raiseFault c a v).fault = some { cause := c, addr := a, byte := v } := rfl
@[simp] theorem State.raiseFault_out : (s.raiseFault c a v).out = s.out := rfl

/-- A register read depends on the register file alone. -/
theorem State.getReg_congr {s t : State} (h : t.x = s.x) (r : Fin 8) : t.getReg r = s.getReg r := by
  simp only [State.getReg, h]

/-- A memory read depends on the RAM alone. -/
theorem State.readByte_congr {s t : State} (h : t.ram = s.ram) (a : Byte) : t.readByte a = s.readByte a := by
  simp only [State.readByte, h]

/-- The bytes fetched depend on the program counter and the RAM alone. -/
theorem State.fetchBytes_congr {s t : State} (hp : t.pc = s.pc) (h : t.ram = s.ram) :
    t.fetchBytes = s.fetchBytes := by
  simp only [State.fetchBytes, State.readByte, hp, h]

end Sys2Proof.Machine
end

