-- ==== Sys2Proof/Laws/Memory.lean ====
section
/-! SUPPORT. The canonical form of a memory: every operation keeps it, reset has it, and equal reads make equal memories.
Read after write (spec 20 R31, R32). -/

namespace Sys2Proof.Machine

/-- The canonical form one cell at a time. -/
theorem Memory.wfFrom_cons {lo k : Nat} {v : Byte} {m : Memory} :
    Memory.wfFrom lo ((k, v) :: m) = true ↔
      lo ≤ k ∧ k < Config.memSize ∧ v ≠ Memory.unlisted ∧ Memory.wfFrom (k + 1) m = true := by
  simp [Memory.wfFrom, and_assoc]

/-- A bound below a canonical list may be lowered. -/
theorem Memory.wfFrom_mono {lo lo' : Nat} {m : Memory} (h : lo' ≤ lo) (w : Memory.wfFrom lo m = true) :
    Memory.wfFrom lo' m = true := by
  cases m with
  | nil => rfl
  | cons c m =>
    obtain ⟨k, v⟩ := c
    rw [Memory.wfFrom_cons] at w ⊢
    exact ⟨h.trans w.1, w.2⟩

/-- An address below a canonical list's bound is unlisted. -/
theorem Memory.read_below {lo a : Nat} {m : Memory} (w : Memory.wfFrom lo m = true) (h : a < lo) :
    Memory.read m a = Memory.unlisted := by
  induction m generalizing lo with
  | nil => rfl
  | cons c m ih =>
    obtain ⟨k, v⟩ := c
    rw [Memory.wfFrom_cons] at w
    have hk : k ≠ a := by omega
    simp only [Memory.read, if_neg hk]
    exact ih w.2.2.2 (by omega)

/-- Reading a list with a cell put in front of it. -/
theorem Memory.read_consCell {a b : Nat} {v : Byte} {m : Memory} (w : Memory.wfFrom (a + 1) m = true) :
    Memory.read (Memory.consCell a v m) b = if b = a then v else Memory.read m b := by
  unfold Memory.consCell
  by_cases hb : b = a
  · subst hb
    by_cases hv : v = Memory.unlisted
    · simp only [↓reduceIte, Memory.read_below w (Nat.lt_succ_self b), hv]
    · simp [if_neg hv, Memory.read]
  · by_cases hv : v = Memory.unlisted
    · simp [if_pos hv, hb]
    · simp [if_neg hv, Memory.read, hb, Ne.symm hb]

/-- Putting a cell in front of a list above it keeps the canonical form. -/
theorem Memory.wfFrom_consCell {lo a : Nat} {v : Byte} {m : Memory} (hlo : lo ≤ a) (ha : a < Config.memSize)
    (w : Memory.wfFrom (a + 1) m = true) : Memory.wfFrom lo (Memory.consCell a v m) = true := by
  unfold Memory.consCell
  split
  · exact Memory.wfFrom_mono (by omega) w
  · rename_i hv
    exact Memory.wfFrom_cons.mpr ⟨hlo, ha, hv, w⟩

/-- A write to an address of the memory keeps the canonical form. -/
theorem Memory.wfFrom_write {lo a : Nat} {v : Byte} {m : Memory} (hlo : lo ≤ a) (ha : a < Config.memSize)
    (w : Memory.wfFrom lo m = true) : Memory.wfFrom lo (Memory.write m a v) = true := by
  induction m generalizing lo with
  | nil => exact Memory.wfFrom_consCell hlo ha rfl
  | cons c m ih =>
    obtain ⟨k, u⟩ := c
    have h := Memory.wfFrom_cons.mp w
    simp only [Memory.write]
    split
    · exact Memory.wfFrom_consCell hlo ha (Memory.wfFrom_cons.mpr ⟨by omega, h.2⟩)
    · split
      · rename_i _ e
        exact Memory.wfFrom_consCell hlo ha (e ▸ h.2.2.2)
      · exact Memory.wfFrom_cons.mpr ⟨h.1, h.2.1, h.2.2.1, ih (by omega) h.2.2.2⟩

/-- `Memory.write` keeps the canonical form. -/
theorem Memory.wf_write {a : Nat} {v : Byte} {m : Memory} (ha : a < Config.memSize) (w : Memory.wf m = true) :
    Memory.wf (Memory.write m a v) = true := Memory.wfFrom_write (Nat.zero_le a) ha w

/-- Reading any address after a write to one. -/
theorem Memory.read_write {lo a : Nat} {v : Byte} {m : Memory} (w : Memory.wfFrom lo m = true) (b : Nat) :
    Memory.read (Memory.write m a v) b = if b = a then v else Memory.read m b := by
  induction m generalizing lo with
  | nil => exact Memory.read_consCell rfl
  | cons c m ih =>
    obtain ⟨k, u⟩ := c
    have h := Memory.wfFrom_cons.mp w
    simp only [Memory.write]
    split
    · rename_i hlt
      exact Memory.read_consCell (Memory.wfFrom_cons.mpr ⟨by omega, h.2⟩)
    · split
      · rename_i _ e
        subst e
        rw [Memory.read_consCell h.2.2.2]
        by_cases hb : b = a
        · simp [hb]
        · simp [Memory.read, hb, Ne.symm hb]
      · rename_i hne
        simp only [Memory.read]
        by_cases hk : k = b
        · have : b ≠ a := by omega
          simp [hk, this]
        · simp only [if_neg hk]
          exact ih h.2.2.2

/-- `MemWrite` keeps the canonical form. -/
theorem State.writeByte_wf {s : State} (w : Memory.wf s.ram = true) (a v : Byte) :
    Memory.wf (s.writeByte a v).ram = true := Memory.wf_write a.isLt w

/-- Writing a run of bytes keeps the canonical form. -/
theorem State.placeBytes_wf {s : State} (w : Memory.wf s.ram = true) (a : Nat) (bs : List Byte) :
    Memory.wf (s.placeBytes a bs).ram = true := by
  induction bs generalizing s a with
  | nil => exact w
  | cons b bs ih => exact ih (State.writeByte_wf w (wrap a) b) (a + 1)

/-- Loading an image keeps the canonical form. -/
theorem State.load_wf {s : State} (w : Memory.wf s.ram = true) (image : List Byte) :
    Memory.wf (s.load image).ram = true := State.placeBytes_wf w 0 image

/-- Storing an instruction at the program counter keeps the canonical form. -/
theorem State.placeWord_wf {s : State} (w : Memory.wf s.ram = true) (nbits n : Nat) :
    Memory.wf (s.placeWord nbits n).ram = true := State.placeBytes_wf w s.pc.toNat (tableBytes nbits n)

/-- Zeroing RAM keeps the canonical form. -/
theorem State.zeroRam_wf {s : State} (w : Memory.wf s.ram = true) : Memory.wf s.zeroRam.ram = true :=
  State.placeBytes_wf w 0 _

/-- The memory after reset is canonical. -/
theorem reset_ram_wf : Memory.wf State.reset.ram = true := rfl

end Sys2Proof.Machine
end

