-- ==== Sys2Proof/Laws/Regs.lean ====
section
/-! SUPPORT. The register file: what a write changes and what it leaves (spec 10 R11). -/

namespace Sys2Proof.Machine

/-- Reading any register after a write to one. -/
theorem Regs.get_set (x : Regs) (r q : Fin 8) (v : Byte) :
    (x.set r v).get q = if q = r then v else x.get q := by
  fin_cases r <;> fin_cases q <;> rfl

@[simp] theorem Regs.get_set_same (x : Regs) (r : Fin 8) (v : Byte) : (x.set r v).get r = v := by
  simp [Regs.get_set]

/-- A second write to the same register replaces the first. -/
@[simp] theorem Regs.set_set (x : Regs) (r : Fin 8) (u v : Byte) : (x.set r u).set r v = x.set r v := by
  fin_cases r <;> rfl

/-- Writes to different registers commute. -/
theorem Regs.set_comm (x : Regs) {r q : Fin 8} (h : r ≠ q) (u v : Byte) :
    (x.set r u).set q v = (x.set q v).set r u := by
  fin_cases r <;> fin_cases q <;> first | rfl | exact absurd rfl h

/-- Two register files with the same reads are the same. -/
theorem Regs.ext_get {x y : Regs} (h : ∀ r, x.get r = y.get r) : x = y := by
  cases x; cases y
  have h0 := h 0; have h1 := h 1; have h2 := h 2; have h3 := h 3
  have h4 := h 4; have h5 := h 5; have h6 := h 6; have h7 := h 7
  simp only [Regs.get] at h0 h1 h2 h3 h4 h5 h6 h7
  simp only [h0, h1, h2, h3, h4, h5, h6, h7]

/-- Reading any register of a state after a write to one. -/
theorem State.getReg_setReg (s : State) (r q : Fin 8) (v : Byte) :
    (s.setReg r v).getReg q = if q = r then v else s.getReg q := Regs.get_set s.x r q v

end Sys2Proof.Machine
end

