-- ==== Sys2Proof/Laws/Ops.lean ====
section
/-! SUPPORT. One lemma per shared operation: wrapping, the auto-advance, register operands, COMPARE, placing bytes. -/

namespace Sys2Proof.Machine

/-- `wrap` reduces modulo 256 (spec 00 R6). -/
@[simp] theorem toNat_wrap (n : Nat) : (wrap n).toNat = n % 256 := by
  simp [wrap]

@[simp] theorem wrap_toNat (b : Byte) : wrap b.toNat = b := by
  simp [wrap]

/-- Wrapping twice is wrapping once. -/
theorem wrap_add_wrap (m n : Nat) : wrap ((wrap m).toNat + n) = wrap (m + n) := by
  apply BitVec.eq_of_toNat_eq
  simp

@[simp] theorem opCount_opc (m : Mnemonic) : opCount (opc m) = m.operandCount := by
  cases m <;> rfl

@[simp] theorem setsPc_opc (m : Mnemonic) : setsPc (opc m) = m.setsPcColumn := by
  cases m <;> rfl

/-- The auto-advance changes the program counter only. -/
theorem State.autoAdvance_eq (s : State) (ir : Byte) :
    s.autoAdvance ir = s.setPc (if setsPc ir then s.pc else wrap (s.pc.toNat + opCount ir + 1)) := by
  unfold State.autoAdvance
  split <;> rfl

/-- A register operand byte 0 to 7 selects its register. -/
theorem regIndex_of_lt {b : Byte} (h : b.toNat < 8) : regIndex b = some ⟨b.toNat, h⟩ := by
  simp [regIndex, h]

/-- A register operand byte above 7 selects none. -/
theorem regIndex_of_ge {b : Byte} (h : 8 ≤ b.toNat) : regIndex b = none := by
  simp [regIndex, Nat.not_lt.mpr h]

/-- One legal register operand: the instruction goes on with it. -/
theorem State.withReg_of_lt (s : State) {a : Byte} (h : a.toNat < 8) (k : Fin 8 → State) :
    s.withReg a k = k ⟨a.toNat, h⟩ := by
  simp [State.withReg, regIndex_of_lt h]

/-- One illegal register operand: RegIndexFault. -/
theorem State.withReg_of_ge (s : State) {a : Byte} (h : 8 ≤ a.toNat) (k : Fin 8 → State) :
    s.withReg a k = s.raiseFault .regIndex s.pc a := by
  simp [State.withReg, regIndex_of_ge h]

/-- Everything a register operand can do: it is legal and the instruction goes on, or it raises RegIndexFault. -/
theorem State.withReg_cases (s : State) (a : Byte) (k : Fin 8 → State) :
    (∃ h : a.toNat < 8, s.withReg a k = k ⟨a.toNat, h⟩) ∨
      (8 ≤ a.toNat ∧ s.withReg a k = s.raiseFault .regIndex s.pc a) := by
  rcases Nat.lt_or_ge a.toNat 8 with h | h
  · exact .inl ⟨h, s.withReg_of_lt h k⟩
  · exact .inr ⟨h, s.withReg_of_ge h k⟩

/-- Two legal register operands: the instruction goes on with them. -/
theorem State.withRegs_of_lt (s : State) {a b : Byte} (ha : a.toNat < 8) (hb : b.toNat < 8)
    (k : Fin 8 → Fin 8 → State) : s.withRegs a b k = k ⟨a.toNat, ha⟩ ⟨b.toNat, hb⟩ := by
  simp [State.withRegs, s.withReg_of_lt ha, s.withReg_of_lt hb]

/-- Everything two register operands can do: both are legal, or the first illegal one raises RegIndexFault. -/
theorem State.withRegs_cases (s : State) (a b : Byte) (k : Fin 8 → Fin 8 → State) :
    (∃ (ha : a.toNat < 8) (hb : b.toNat < 8), s.withRegs a b k = k ⟨a.toNat, ha⟩ ⟨b.toNat, hb⟩) ∨
      (8 ≤ a.toNat ∧ s.withRegs a b k = s.raiseFault .regIndex s.pc a) ∨
      (a.toNat < 8 ∧ 8 ≤ b.toNat ∧ s.withRegs a b k = s.raiseFault .regIndex s.pc b) := by
  rcases s.withReg_cases a (fun ra => s.withReg b fun rb => k ra rb) with ⟨ha, ea⟩ | ⟨ha, ea⟩
  · rcases s.withReg_cases b (fun rb => k ⟨a.toNat, ha⟩ rb) with ⟨hb, eb⟩ | ⟨hb, eb⟩
    · exact .inl ⟨ha, hb, by rw [State.withRegs, ea, eb]⟩
    · exact .inr (.inr ⟨ha, hb, by rw [State.withRegs, ea, eb]⟩)
  · exact .inr (.inl ⟨ha, by rw [State.withRegs, ea]⟩)

/-- COMPARE gives one of three bytes, by the order of the unsigned values (spec 42 R104). -/
theorem compareFlags_cases (u v : Byte) :
    (u.toNat = v.toNat ∧ compareFlags u v = 0x01) ∨ (u.toNat < v.toNat ∧ compareFlags u v = 0x04) ∨
      (v.toNat < u.toNat ∧ compareFlags u v = 0x02) := by
  unfold compareFlags
  split
  · rename_i h; exact .inl ⟨by rw [h], rfl⟩
  · rename_i h
    have hne : u.toNat ≠ v.toNat := fun e => h (BitVec.eq_of_toNat_eq e)
    split
    · rename_i hlt; exact .inr (.inl ⟨hlt, rfl⟩)
    · rename_i hlt; exact .inr (.inr ⟨by omega, rfl⟩)

/-- Placing bytes changes RAM and nothing else. -/
theorem State.placeBytes_eq (s : State) (a : Nat) (bs : List Byte) :
    s.placeBytes a bs = { s with ram := (s.placeBytes a bs).ram } := by
  induction bs generalizing s a with
  | nil => rfl
  | cons b bs ih =>
    simp only [State.placeBytes]
    rw [ih]
    rfl

variable (s : State) (a : Nat) (bs : List Byte)

@[simp] theorem State.placeBytes_pc : (s.placeBytes a bs).pc = s.pc := by rw [State.placeBytes_eq]
@[simp] theorem State.placeBytes_x : (s.placeBytes a bs).x = s.x := by rw [State.placeBytes_eq]
@[simp] theorem State.placeBytes_fl : (s.placeBytes a bs).fl = s.fl := by rw [State.placeBytes_eq]
@[simp] theorem State.placeBytes_run : (s.placeBytes a bs).run = s.run := by rw [State.placeBytes_eq]
@[simp] theorem State.placeBytes_fault : (s.placeBytes a bs).fault = s.fault := by rw [State.placeBytes_eq]
@[simp] theorem State.placeBytes_out : (s.placeBytes a bs).out = s.out := by rw [State.placeBytes_eq]

end Sys2Proof.Machine
end

