-- ==== Sys2Proof/Laws/Boundary.lean ====
section
/-! SUPPORT. Reset and launch: which fields they set, whatever the loops over RAM do. -/

namespace Sys2Proof.Machine

@[simp] theorem State.load_pc (s : State) (image : List Byte) : (s.load image).pc = s.pc := s.placeBytes_pc 0 image
@[simp] theorem State.load_x (s : State) (image : List Byte) : (s.load image).x = s.x := s.placeBytes_x 0 image
@[simp] theorem State.load_fl (s : State) (image : List Byte) : (s.load image).fl = s.fl := s.placeBytes_fl 0 image
@[simp] theorem State.load_run (s : State) (image : List Byte) : (s.load image).run = s.run := s.placeBytes_run 0 image
@[simp] theorem State.load_fault (s : State) (image : List Byte) : (s.load image).fault = s.fault :=
  s.placeBytes_fault 0 image
@[simp] theorem State.load_out (s : State) (image : List Byte) : (s.load image).out = s.out := s.placeBytes_out 0 image

/-- Whatever state RAM was zeroed in, `initialize` gives every other field its reset value (spec 70 R180). -/
theorem State.initialize_eq (s : State) :
    s.initialize = { State.reset with ram := s.zeroRegs.zeroRam.ram } := by
  have hx : s.zeroRegs.zeroRam.x = s.zeroRegs.x := State.placeBytes_x _ _ _
  unfold State.initialize
  generalize s.zeroRegs.zeroRam = z at hx ⊢
  simp only [State.setReg, State.setPc, hx]
  rfl

/-- An image that fits launches from reset (70 R182). -/
theorem launch_of_le {image : List Byte} (h : image.length ≤ 256) : launch image = .next (State.reset.load image) := by
  rw [launch, if_pos (show image.length ≤ Config.memSize from h)]

/-- A launch state comes from an image that fits. -/
theorem launch_next {image : List Byte} {s : State} (h : launch image = .next s) :
    image.length ≤ 256 ∧ s = State.reset.load image := by
  unfold launch at h
  split at h
  · rename_i hl
    exact ⟨hl, (Host.Outcome.next.inj h).symm⟩
  · cases h

end Sys2Proof.Machine
end

