-- ==== Sys2Proof/Laws/Decode.lean ====
section
/-! SUPPORT. The decoder: what `mnemonicWith` and `takeOperands` answer, for any opcode assignment that the spec admits
(spec 30 R56), and that the machine's own assignment is one. -/

namespace Sys2Proof

/-- The list of mnemonics is complete. -/
theorem Mnemonic.mem_all (m : Mnemonic) : m ∈ Mnemonic.all := by
  cases m <;> decide

/-- A byte is found only under the mnemonic whose opcode it is. -/
theorem mnemonicWith_sound {o : Mnemonic → Byte} {ir : Byte} {m : Mnemonic} (h : mnemonicWith o ir = some m) :
    o m = ir := by
  have := List.find?_some h
  simpa using this

/-- A byte that no mnemonic has is found under none. -/
theorem mnemonicWith_none {o : Mnemonic → Byte} {ir : Byte} : mnemonicWith o ir = none ↔ ∀ m, o m ≠ ir := by
  unfold mnemonicWith
  rw [List.find?_eq_none]
  simp [Mnemonic.mem_all]

/-- Where opcodes are pairwise different, an opcode is found under its own mnemonic. -/
theorem mnemonicWith_self {o : Mnemonic → Byte} (h : ∀ m m', o m = o m' → m = m') (m : Mnemonic) :
    mnemonicWith o (o m) = some m := by
  cases e : mnemonicWith o (o m) with
  | none => exact absurd rfl (mnemonicWith_none.mp e m)
  | some m' => rw [h m' m (mnemonicWith_sound e)]

/-- The operands of an instruction are taken back from its operand bytes. -/
theorem takeOperands_operandBytes (i : Instr) (rest : List Byte) :
    takeOperands i.mnemonic (i.operandBytes ++ rest) = .ok (i, rest) := by
  cases i <;> rfl

/-- What is taken is the mnemonic's own instruction, and its operand bytes stood at the head. -/
theorem takeOperands_ok {m : Mnemonic} {bs rest : List Byte} {i : Instr} (h : takeOperands m bs = .ok (i, rest)) :
    i.mnemonic = m ∧ bs = i.operandBytes ++ rest := by
  unfold takeOperands at h
  split at h <;> first
    | (cases h; exact ⟨rfl, rfl⟩)
    | cases h

/-- Taking operands fails only when bytes are missing. -/
theorem takeOperands_of_length {m : Mnemonic} {bs : List Byte} (h : m.operandCount ≤ bs.length) :
    ∃ i rest, takeOperands m bs = .ok (i, rest) := by
  rcases bs with _ | ⟨a, _ | ⟨b, bs⟩⟩ <;> cases m <;>
    first
    | exact ⟨_, _, rfl⟩
    | (simp [Mnemonic.operandCount] at h)

/-- How many operand bytes an instruction has. -/
theorem Instr.operandBytes_length (i : Instr) : i.operandBytes.length = i.mnemonic.operandCount := by
  cases i <;> rfl

/-- An encoding is as long as its opcode byte says (30 R52). -/
theorem encode_length (i : Instr) : (encode i).length = instrLength (opc i.mnemonic) := by
  simp only [encode, encodeWith, List.length_cons, i.operandBytes_length, instrLength, Machine.opCount_opc]
  omega

/-- Bytes that decode begin with an opcode and hold the instruction's operand bytes after it. -/
theorem decodeWith_ok {o : Mnemonic → Byte} {bs rest : List Byte} {i : Instr}
    (h : decodeWith o bs = .ok (i, rest)) :
    bs = o i.mnemonic :: (i.operandBytes ++ rest) := by
  cases bs with
  | nil => cases h
  | cons ir tl =>
    simp only [decodeWith] at h
    split at h
    · cases h
    · rename_i m hm
      obtain ⟨h1, h2⟩ := takeOperands_ok h
      rw [h2, h1, mnemonicWith_sound hm]

end Sys2Proof
end

