-- ==== Sys2Proof/Laws/Exec.lean ====
section
/-! SUPPORT. One lemma per instruction that says everything its meaning can do: the explicit next state with legal register
operands, or RegIndexFault on the first illegal one. Later proofs cite these and unfold no meaning. -/

namespace Sys2Proof.Machine

/-- LDI (spec 41 R90). -/
theorem execLdi_cases (a imm : Byte) (s : State) :
    (∃ h : a.toNat < 8, execLdi a imm s = .next ((s.setReg ⟨a.toNat, h⟩ imm).setPc (wrap (s.pc.toNat + 3)))) ∨
      (8 ≤ a.toNat ∧ execLdi a imm s = .next (s.raiseFault .regIndex s.pc a)) := by
  rcases Nat.lt_or_ge a.toNat 8 with h | h
  · exact .inl ⟨h, by rw [execLdi, s.withReg_of_lt h]; rfl⟩
  · exact .inr ⟨h, by rw [execLdi, s.withReg_of_ge h]⟩

/-- PRN (41 R91). -/
theorem execPrn_cases (a : Byte) (s : State) :
    (∃ h : a.toNat < 8,
      execPrn a s = .next ((s.emit (s.getReg ⟨a.toNat, h⟩)).setPc (wrap (s.pc.toNat + 2)))) ∨
      (8 ≤ a.toNat ∧ execPrn a s = .next (s.raiseFault .regIndex s.pc a)) := by
  rcases Nat.lt_or_ge a.toNat 8 with h | h
  · exact .inl ⟨h, by rw [execPrn, s.withReg_of_lt h]; rfl⟩
  · exact .inr ⟨h, by rw [execPrn, s.withReg_of_ge h]⟩

/-- MUL (42 R102). -/
theorem execMul_cases (a b : Byte) (s : State) :
    (∃ (ha : a.toNat < 8) (hb : b.toNat < 8), execMul a b s =
      .next ((s.setReg ⟨a.toNat, ha⟩ (aluMul (s.getReg ⟨a.toNat, ha⟩) (s.getReg ⟨b.toNat, hb⟩))).setPc
        (wrap (s.pc.toNat + 3)))) ∨
      (8 ≤ a.toNat ∧ execMul a b s = .next (s.raiseFault .regIndex s.pc a)) ∨
      (a.toNat < 8 ∧ 8 ≤ b.toNat ∧ execMul a b s = .next (s.raiseFault .regIndex s.pc b)) := by
  rcases s.withRegs_cases a b fun ra rb =>
    (s.setReg ra (aluMul (s.getReg ra) (s.getReg rb))).autoAdvance (opc .mul) with ⟨ha, hb, e⟩ | ⟨ha, e⟩ | ⟨ha, hb, e⟩
  · exact .inl ⟨ha, hb, by rw [execMul, e]; rfl⟩
  · exact .inr (.inl ⟨ha, by rw [execMul, e]⟩)
  · exact .inr (.inr ⟨ha, hb, by rw [execMul, e]⟩)

/-- ADD (42 R103). -/
theorem execAdd_cases (a b : Byte) (s : State) :
    (∃ (ha : a.toNat < 8) (hb : b.toNat < 8), execAdd a b s =
      .next ((s.setReg ⟨a.toNat, ha⟩ (aluAdd (s.getReg ⟨a.toNat, ha⟩) (s.getReg ⟨b.toNat, hb⟩))).setPc
        (wrap (s.pc.toNat + 3)))) ∨
      (8 ≤ a.toNat ∧ execAdd a b s = .next (s.raiseFault .regIndex s.pc a)) ∨
      (a.toNat < 8 ∧ 8 ≤ b.toNat ∧ execAdd a b s = .next (s.raiseFault .regIndex s.pc b)) := by
  rcases s.withRegs_cases a b fun ra rb =>
    (s.setReg ra (aluAdd (s.getReg ra) (s.getReg rb))).autoAdvance (opc .add) with ⟨ha, hb, e⟩ | ⟨ha, e⟩ | ⟨ha, hb, e⟩
  · exact .inl ⟨ha, hb, by rw [execAdd, e]; rfl⟩
  · exact .inr (.inl ⟨ha, by rw [execAdd, e]⟩)
  · exact .inr (.inr ⟨ha, hb, by rw [execAdd, e]⟩)

/-- CMP (42 R104). -/
theorem execCmp_cases (a b : Byte) (s : State) :
    (∃ (ha : a.toNat < 8) (hb : b.toNat < 8), execCmp a b s =
      .next ((s.setFl (compareFlags (s.getReg ⟨a.toNat, ha⟩) (s.getReg ⟨b.toNat, hb⟩))).setPc
        (wrap (s.pc.toNat + 3)))) ∨
      (8 ≤ a.toNat ∧ execCmp a b s = .next (s.raiseFault .regIndex s.pc a)) ∨
      (a.toNat < 8 ∧ 8 ≤ b.toNat ∧ execCmp a b s = .next (s.raiseFault .regIndex s.pc b)) := by
  rcases s.withRegs_cases a b fun ra rb =>
    (s.setFl (compareFlags (s.getReg ra) (s.getReg rb))).autoAdvance (opc .cmp) with ⟨ha, hb, e⟩ | ⟨ha, e⟩ | ⟨ha, hb, e⟩
  · exact .inl ⟨ha, hb, by rw [execCmp, e]; rfl⟩
  · exact .inr (.inl ⟨ha, by rw [execCmp, e]⟩)
  · exact .inr (.inr ⟨ha, hb, by rw [execCmp, e]⟩)

/-- JMP (43 R110). -/
theorem execJmp_cases (a : Byte) (s : State) :
    (∃ h : a.toNat < 8, execJmp a s = .next (s.setPc (s.getReg ⟨a.toNat, h⟩))) ∨
      (8 ≤ a.toNat ∧ execJmp a s = .next (s.raiseFault .regIndex s.pc a)) := by
  rcases Nat.lt_or_ge a.toNat 8 with h | h
  · exact .inl ⟨h, by rw [execJmp, s.withReg_of_lt h]; rfl⟩
  · exact .inr ⟨h, by rw [execJmp, s.withReg_of_ge h]⟩

/-- A conditional jump with the engine's 2 added: to the register's value plus 2, or to its own address plus 4. -/
theorem State.jumpIf_advance (s : State) (taken : Bool) (r : Fin 8) (m : Mnemonic) (hc : m.operandCount = 1)
    (hp : m.setsPcColumn = false) :
    (s.jumpIf taken r).autoAdvance (opc m) =
      s.setPc (if taken then wrap ((s.getReg r).toNat + 2) else wrap (s.pc.toNat + 4)) := by
  rw [State.autoAdvance_eq, setsPc_opc, opCount_opc, hc, hp]
  cases taken
  · exact congrArg s.setPc (wrap_add_wrap (s.pc.toNat + 2) 2)
  · rfl

/-- JEQ (43 R111). -/
theorem execJeq_cases (a : Byte) (s : State) :
    (∃ h : a.toNat < 8, execJeq a s = .next (s.setPc
      (if flagE s.fl then wrap ((s.getReg ⟨a.toNat, h⟩).toNat + 2) else wrap (s.pc.toNat + 4)))) ∨
      (8 ≤ a.toNat ∧ execJeq a s = .next (s.raiseFault .regIndex s.pc a)) := by
  rcases Nat.lt_or_ge a.toNat 8 with h | h
  · exact .inl ⟨h, by rw [execJeq, s.withReg_of_lt h, s.jumpIf_advance _ _ _ rfl rfl]⟩
  · exact .inr ⟨h, by rw [execJeq, s.withReg_of_ge h]⟩

/-- JNE (43 R112). -/
theorem execJne_cases (a : Byte) (s : State) :
    (∃ h : a.toNat < 8, execJne a s = .next (s.setPc
      (if flagE s.fl then wrap (s.pc.toNat + 4) else wrap ((s.getReg ⟨a.toNat, h⟩).toNat + 2)))) ∨
      (8 ≤ a.toNat ∧ execJne a s = .next (s.raiseFault .regIndex s.pc a)) := by
  rcases Nat.lt_or_ge a.toNat 8 with h | h
  · refine .inl ⟨h, ?_⟩
    rw [execJne, s.withReg_of_lt h, s.jumpIf_advance _ _ _ rfl rfl]
    cases flagE s.fl <;> rfl
  · exact .inr ⟨h, by rw [execJne, s.withReg_of_ge h]⟩

/-- HLT (44 R120). -/
theorem execHlt_eq (s : State) : execHlt s = .next ((s.setRun .halted).setPc (wrap (s.pc.toNat + 1))) := rfl

end Sys2Proof.Machine
end

