-- ==== Sys2Proof/Laws/PerInstr.lean ====
section
/-! SUPPORT. One lemma per instruction: its encoding begins with its own opcode byte and has the length that byte's bits
7:6 give (spec 30 R50, R52, R62). -/

namespace Sys2Proof.Laws.EncodedLength

/-- The encoding of `i` begins with the opcode byte of its row, and its length is 1 plus that byte's operand count. -/
def Statement (i : Instr) : Prop :=
  (encode i).head? = some (opc i.mnemonic) ∧ (encode i).length = instrLength (opc i.mnemonic)

theorem ldi (a imm : Byte) : Statement (.ldi a imm) := ⟨rfl, encode_length _⟩
theorem prn (a : Byte) : Statement (.prn a) := ⟨rfl, encode_length _⟩
theorem mul (a b : Byte) : Statement (.mul a b) := ⟨rfl, encode_length _⟩
theorem add (a b : Byte) : Statement (.add a b) := ⟨rfl, encode_length _⟩
theorem cmp (a b : Byte) : Statement (.cmp a b) := ⟨rfl, encode_length _⟩
theorem jmp (a : Byte) : Statement (.jmp a) := ⟨rfl, encode_length _⟩
theorem jeq (a : Byte) : Statement (.jeq a) := ⟨rfl, encode_length _⟩
theorem jne (a : Byte) : Statement (.jne a) := ⟨rfl, encode_length _⟩
theorem hlt : Statement .hlt := ⟨rfl, encode_length _⟩

end Sys2Proof.Laws.EncodedLength
end

