-- ==== Sys2Proof/Laws/Step.lean ====
section
/-! SUPPORT. The cycle: when a step is enabled it executes the decoded instruction or raises DecodeError, and nothing else
can happen (spec 40 R79). -/

namespace Sys2Proof.Machine

/-- The first fetched byte is the byte at the program counter. -/
theorem State.fetchBytes_eq (s : State) :
    s.fetchBytes = s.readByte s.pc ::
      (List.range (opCount (s.readByte s.pc))).map fun k => s.readByte (wrap (s.pc.toNat + (k + 1))) := by
  unfold State.fetchBytes instrLength
  rw [Nat.add_comm, List.range_succ_eq_map]
  simp [Function.comp_def]

/-- As many bytes are fetched as bits 7:6 of the opcode byte say. -/
theorem State.fetchBytes_length (s : State) : s.fetchBytes.length = 1 + opCount (s.readByte s.pc) := by
  simp [State.fetchBytes, instrLength]

/-- With a known opcode at the program counter the fetched bytes are exactly one instruction. -/
theorem State.fetchBytes_decode {s : State} {m : Mnemonic} (h : mnemonicWith opc (s.readByte s.pc) = some m) :
    ∃ i, i.mnemonic = m ∧ decode s.fetchBytes = .ok (i, []) := by
  have hb := mnemonicWith_sound h
  have hl : m.operandCount = s.fetchBytes.tail.length := by
    rw [List.length_tail, s.fetchBytes_length, ← hb, opCount_opc]; omega
  obtain ⟨i, rest, hi⟩ := takeOperands_of_length hl.le
  obtain ⟨h1, h2⟩ := takeOperands_ok hi
  have hr : rest = [] := by
    have := congrArg List.length h2
    rw [List.length_append, i.operandBytes_length, h1, ← hl] at this
    exact List.length_eq_zero_iff.mp (by omega)
  subst hr
  refine ⟨i, h1, ?_⟩
  rw [s.fetchBytes_eq] at hi ⊢
  simp only [decode, decodeWith, h]
  exact hi

/-- With an unknown opcode at the program counter the decoder rejects by that byte. -/
theorem State.fetchBytes_unknown {s : State} (h : mnemonicWith opc (s.readByte s.pc) = none) :
    decode s.fetchBytes = .error (.unknownOpcode (s.readByte s.pc)) := by
  rw [s.fetchBytes_eq]
  simp only [decode, decodeWith, h]

/-- A step in a RUNNING state executes the decoded instruction. -/
theorem step_of_decode {s : State} {i : Instr} {rest : List Byte} (hr : s.run = .running)
    (h : decode s.fetchBytes = .ok (i, rest)) : step s = exec i s := by
  simp only [step, cycleWith, hr]
  rw [decode] at h
  rw [h]

/-- A step in a RUNNING state with an unknown opcode raises DecodeError. -/
theorem step_of_unknown {s : State} (hr : s.run = .running) (h : mnemonicWith opc (s.readByte s.pc) = none) :
    step s = .next (s.raiseFault .decodeError s.pc (s.readByte s.pc)) := by
  have e := State.fetchBytes_unknown h
  rw [decode] at e
  simp only [step, cycleWith, hr, e]

/-- Everything a step with a next state can have been: an instruction at the program counter, or DecodeError. -/
theorem step_next_cases {s t : State} (h : step s = .next t) :
    s.run = .running ∧
      ((∃ i, decode s.fetchBytes = .ok (i, []) ∧ s.readByte s.pc = opc i.mnemonic ∧ exec i s = .next t) ∨
        (mnemonicWith opc (s.readByte s.pc) = none ∧
          t = s.raiseFault .decodeError s.pc (s.readByte s.pc))) := by
  have hr : s.run = .running := by
    cases e : s.run with
    | running => rfl
    | halted => simp [step, cycleWith, e] at h
    | faulted => simp [step, cycleWith, e] at h
  refine ⟨hr, ?_⟩
  cases hm : mnemonicWith opc (s.readByte s.pc) with
  | none =>
    rw [step_of_unknown hr hm] at h
    exact .inr ⟨rfl, (Host.Outcome.next.inj h).symm⟩
  | some m =>
    obtain ⟨i, hi, hd⟩ := State.fetchBytes_decode hm
    rw [step_of_decode hr hd] at h
    exact .inl ⟨i, hd, by rw [hi, mnemonicWith_sound hm], h⟩

end Sys2Proof.Machine
end

