-- ==== Sys2Proof/Laws/Run.lean ====
section
/-! SUPPORT. Runs of several steps: the two equations of the host's `run` on this machine, and the one induction every
claim about a run needs. -/

namespace Sys2Proof.Machine

/-- No step: the state itself. -/
theorem core_run_zero (s : State) : Host.Core.run Sys2Proof.core 0 s = .next s := rfl

/-- One step more, where the first step has a next state. -/
theorem core_run_succ {n : Nat} {s u : State} (h : step s = .next u) :
    Host.Core.run Sys2Proof.core (n + 1) s = Host.Core.run Sys2Proof.core n u := by
  refine (Host.Core.run.eq_2 Sys2Proof.core s n).trans ?_
  have h' : Sys2Proof.core.step s = .next u := h
  rw [h']

/-- A run of `n + 1` steps with an end has a first step. -/
theorem core_run_succ_next {n : Nat} {s t : State} (h : Host.Core.run Sys2Proof.core (n + 1) s = .next t) :
    ∃ u, step s = .next u ∧ Host.Core.run Sys2Proof.core n u = .next t := by
  cases e : step s with
  | next u => exact ⟨u, rfl, by rw [← core_run_succ e, h]⟩
  | fault r =>
    have e' : Sys2Proof.core.step s = .fault r := e
    have h' := (Host.Core.run.eq_2 Sys2Proof.core s n).symm.trans h
    rw [e'] at h'
    cases h'
  | refused r =>
    have e' : Sys2Proof.core.step s = .refused r := e
    have h' := (Host.Core.run.eq_2 Sys2Proof.core s n).symm.trans h
    rw [e'] at h'
    cases h'

/-- What every step preserves holds along a run. -/
theorem core_run_induction {P : State → Prop} (hstep : ∀ s t, P s → step s = .next t → P t) {n : Nat} {s t : State}
    (hs : P s) (h : Host.Core.run Sys2Proof.core n s = .next t) : P t := by
  induction n generalizing s with
  | zero => rw [core_run_zero] at h; cases h; exact hs
  | succ n ih =>
    obtain ⟨u, h1, h2⟩ := core_run_succ_next h
    exact ih (hstep s u hs h1) h2

end Sys2Proof.Machine
end

