-- ==== Sys2Proof/Tests/Slice0.lean ====
section
/-! SUPPORT. Tests. Expected results are the vectors of spec/95_test_vectors.md (named in each comment) or read off the rule
named. Then, for each statement with hypotheses, a state and operands that meet them, at the edge of each clause. -/

namespace Sys2Proof.Tests

open Sys2Proof Sys2Proof.Machine

/-- The reset state with the program counter at `pc` and bytes placed there. -/
def machineAt (pc : Byte) (bytes : List Byte) : State :=
  (State.reset.setPc pc).placeBytes pc.toNat bytes

/-- One field of the next state, where there is one. -/
def after {α : Type} (f : State → α) (o : Host.Outcome State Fault Refusal) : Option α := (nextOf o).map f

/-! ### WellFormed: an ill-formed term for each register operand, and what is not checked -/

theorem test_wellFormed_refuses_ldi : Instr.wellFormed (.ldi 8 0) = false := by decide
theorem test_wellFormed_refuses_prn : Instr.wellFormed (.prn 9) = false := by decide
theorem test_wellFormed_refuses_mul :
    Instr.wellFormed (.mul 8 0) = false ∧ Instr.wellFormed (.mul 0 8) = false := by decide
theorem test_wellFormed_refuses_add :
    Instr.wellFormed (.add 255 0) = false ∧ Instr.wellFormed (.add 7 8) = false := by decide
theorem test_wellFormed_refuses_cmp :
    Instr.wellFormed (.cmp 16 0) = false ∧ Instr.wellFormed (.cmp 0 16) = false := by decide
theorem test_wellFormed_refuses_jumps :
    Instr.wellFormed (.jmp 8) = false ∧ Instr.wellFormed (.jeq 8) = false ∧ Instr.wellFormed (.jne 8) = false := by
  decide
theorem test_wellFormed_accepts :
    Instr.wellFormed (.ldi 7 255) = true ∧ Instr.wellFormed (.cmp 7 7) = true ∧ Instr.wellFormed .hlt = true := by
  decide

/-! ### Decode: each word written out bit by bit from the formats of 30 section 1 and the opcode table -/

/-- `LDI R0,8` (30 R62). -/
theorem test_decode_ldi : decode [0b10000010, 0b00000000, 0b00001000] = .ok (.ldi 0 8, []) := rfl
/-- `PRN R0` (30 R62), with a byte after it. -/
theorem test_decode_prn : decode [0b01000111, 0b00000000, 0b00000001] = .ok (.prn 0, [0x01]) := rfl
/-- `MUL R0,R1` (42 R102 example). -/
theorem test_decode_mul : decode [0b10100010, 0b00000000, 0b00000001] = .ok (.mul 0 1, []) := rfl
/-- `ADD R3,R6` (95 S1). -/
theorem test_decode_add : decode [0b10100000, 0b00000011, 0b00000110] = .ok (.add 3 6, []) := rfl
/-- `CMP R0,R2` (95 P2). -/
theorem test_decode_cmp : decode [0b10100111, 0b00000000, 0b00000010] = .ok (.cmp 0 2, []) := rfl
/-- `JMP R4` (43 R110 example). -/
theorem test_decode_jmp : decode [0b01010100, 0b00000100] = .ok (.jmp 4, []) := rfl
/-- `JEQ R3` (43 R111 example). -/
theorem test_decode_jeq : decode [0b01000101, 0b00000011] = .ok (.jeq 3, []) := rfl
/-- `JNE R3` (43 R112 example). -/
theorem test_decode_jne : decode [0b01000110, 0b00000011] = .ok (.jne 3, []) := rfl
/-- `HLT` (30 R62). -/
theorem test_decode_hlt : decode [0b00000001] = .ok (.hlt, []) := rfl

/-- Bytes that look like an instruction and are none: 0x00, the public JEQ byte 0x55, LDI with bit 4 set, LDI without its top
bits, an operand count of 3 (95 E1 to E5). -/
theorem test_decode_illegal :
    [0x00, 0x55, 0x92, 0x02, 0xC0, 0xFF].all (fun b => (mnemonicWith opc b).isNone) = true := by decide
/-- The other two ways the decoder rejects. -/
theorem test_decode_short :
    decode [] = .error .noBytes ∧ decode [0x82, 0x00] = .error (.truncated .ldi) ∧
      decode [0xFF, 0x00] = .error (.unknownOpcode 0xFF) := ⟨rfl, rfl, rfl⟩
/-- Every row of the opcode table, by the eight bits the table fixes. -/
theorem test_decode_table_rows :
    [0x82, 0x47, 0xA2, 0xA0, 0xA7, 0x54, 0x45, 0x46, 0x01].map (decodeTableWord 8) =
      [some (.ldi 0 0), some (.prn 0), some (.mul 0 0), some (.add 0 0), some (.cmp 0 0), some (.jmp 0),
        some (.jeq 0), some (.jne 0), some .hlt] := by decide
/-- `LDI R1,5` as one number: byte 0 is bits 7:0. -/
theorem test_decode_table_operands : decodeTableWord 24 0x050182 = some (.ldi 1 5) := by decide
/-- The fetch after `withFetchWord` finds the instruction. -/
theorem test_withFetchWord_runs :
    after (fun t => (t.getReg 1, t.pc)) (step (State.reset.withFetchWord 24 0x050182)) = some (5, 3) := by decide

/-! ### One step each -/

/-- 95 L2: R7 is an ordinary register. -/
theorem test_ldi_r7 : after (fun t => (t.getReg 7, t.pc)) (step (machineAt 0x10 [0x82, 0x07, 0xFF])) = some (0xFF, 0x13) := by
  decide
/-- 95 E7: operands at 0xFF and 0x00. -/
theorem test_ldi_straddles_top :
    after (fun t => (t.getReg 1, t.pc)) (step (machineAt 0xFE [0x82, 0x01, 0x82])) = some (0x82, 0x01) := by decide
/-- 95 L5: R7 at reset prints 244. -/
theorem test_prn_reset_r7 : after (fun t => (t.out, t.pc)) (step (machineAt 0 [0x47, 0x07])) = some ([244], 2) := by decide
/-- 95 L8: nothing is emitted on a bad operand. -/
theorem test_prn_bad_register :
    after (fun t => (t.out, t.pc, t.run, t.fault)) (step (machineAt 0x10 [0x47, 0x09])) =
      some ([], 0x10, .faulted, some { cause := .regIndex, addr := 0x10, byte := 0x09 }) := by decide
/-- 95 M1: 200 * 200 gives 64. -/
theorem test_mul_wraps :
    after (fun t => t.getReg 0) (exec (.mul 0 1) ((State.reset.setReg 0 200).setReg 1 200)) = some 64 := by decide
/-- 95 M10: the same register twice gives the square. -/
theorem test_mul_same_register : after (fun t => t.getReg 0) (exec (.mul 0 0) (State.reset.setReg 0 15)) = some 225 := by
  decide
/-- 95 A2: 250 + 10 gives 4, and no flag is set. -/
theorem test_add_wraps :
    after (fun t => (t.getReg 0, t.getReg 1, t.fl)) (exec (.add 0 1) ((State.reset.setReg 0 250).setReg 1 10)) =
      some (4, 10, 0) := by decide
/-- 95 A11: operand A is reported first. -/
theorem test_add_reports_operand_a_first :
    after (fun t => t.fault) (exec (.add 9 10) State.reset) =
      some (some { cause := .regIndex, addr := 0, byte := 9 }) := by decide
/-- 95 CV5: unsigned, and the old flag is cleared. -/
theorem test_cmp_unsigned_clears :
    after (fun t => t.fl) (exec (.cmp 0 1) (((State.reset.setReg 0 255).setReg 1 1).setFl 0x01)) = some 0x02 := by decide
/-- 95 section 2.3, false variant C3: operand B names a register, it is not the value compared. -/
theorem test_cmp_compares_registers : after (fun t => t.fl) (exec (.cmp 0 5) (State.reset.setReg 0 5)) = some 0x02 := by
  decide
/-- 95 J3: R7's reset value as a target. -/
theorem test_jmp_exact : after (fun t => t.pc) (step (machineAt 0 [0x54, 0x07])) = some 0xF4 := by decide
/-- 95 J4: a bad operand leaves the pc. -/
theorem test_jmp_bad_register :
    after (fun t => (t.pc, t.run)) (step (machineAt 0x20 [0x54, 0x08])) = some (0x20, .faulted) := by decide
/-- 95 J14: taken, register plus 2, wrapping. -/
theorem test_jeq_taken_wraps :
    after (fun t => t.pc) (exec (.jeq 0) ((State.reset.setReg 0 0xFF).setFl 0x01)) = some 0x01 := by decide
/-- 95 J15: not taken at 0xFE, own address plus 4, wrapping. -/
theorem test_jeq_not_taken_wraps : after (fun t => t.pc) (step (machineAt 0xFE [0x45, 0x00])) = some 0x02 := by decide
/-- 95 J11: L set counts as not equal. -/
theorem test_jne_taken :
    after (fun t => t.pc) (exec (.jne 0) (((State.reset.setPc 0x20).setReg 0 0x40).setFl 0x04)) = some 0x42 := by decide
/-- 95 J12: not taken. -/
theorem test_jne_not_taken :
    after (fun t => t.pc) (exec (.jne 0) (((State.reset.setPc 0x20).setReg 0 0x40).setFl 0x01)) = some 0x24 := by decide
/-- 95 E6: HLT at the last address. -/
theorem test_hlt_wraps : after (fun t => (t.run, t.pc, t.fault)) (step (machineAt 0xFF [0x01])) = some (.halted, 0, none) := by
  decide
/-- 95 E2: 0x55 is not JEQ on this machine. -/
theorem test_decode_error :
    after (fun t => (t.run, t.fault, t.pc)) (step (machineAt 0x30 [0x55, 0x00])) =
      some (.faulted, some { cause := .decodeError, addr := 0x30, byte := 0x55 }, 0x30) := by decide
/-- 95 Z2: an empty image faults at once. -/
theorem test_launch_empty :
    (after (fun s => after (fun t => t.fault) (step s)) (launch [])) =
      some (some (some { cause := .decodeError, addr := 0, byte := 0 })) := by decide
/-- 95 S1, S2, S3: the texts printed. -/
theorem test_output_text :
    State.outText { State.reset with out := [8, 64, 0, 255] } = "8\n64\n0\n255\n".toList := by decide

/-- 30 R62 and 95 S1: the program of S1 assembles to its twelve bytes. -/
theorem test_assemble :
    assemble [.ldi 0 5, .ldi 1 3, .add 0 1, .prn 0, .hlt] =
      [0x82, 0x00, 0x05, 0x82, 0x01, 0x03, 0xA0, 0x00, 0x01, 0x47, 0x00, 0x01] := by decide
/-- 30 R60: the forms `LDI R0,200` and `JEQ R3`, and none for a register that does not exist. -/
theorem test_asmText :
    asmText (.ldi 0 200) = some "LDI R0,200".toList ∧ asmText (.jeq 3) = some "JEQ R3".toList ∧ asmText (.prn 8) = none := by
  decide

/-! ### Witnesses: for each statement with hypotheses, something that meets them -/

/-- LengthFromFirstByte: bytes that decode, and an opcode with bit 4 clear. -/
theorem witness_LengthFromFirstByte :
    decode (0x47 :: [0x00, 0x01]) = .ok (.prn 0, [0x01]) ∧ setsPc 0x47 = false := ⟨rfl, rfl⟩

/-- IllegalOpcodesRejected: the least and the greatest illegal byte, and the least with operand count 3. -/
theorem witness_IllegalOpcodesRejected :
    (0x00 : Byte) ∉ [0x82, 0x47, 0xA2, 0xA0, 0xA7, 0x54, 0x45, 0x46, (0x01 : Byte)] ∧
    (0xFF : Byte) ∉ [0x82, 0x47, 0xA2, 0xA0, 0xA7, 0x54, 0x45, 0x46, (0x01 : Byte)] ∧ opCount 0xC0 = 3 := by decide

/-- The machine's own opcode assignment meets K1 to K4 of 30 R56. -/
theorem witness_opc_valid : ValidOpc opc where
  k1 := opCount_opc
  k2 := setsPc_opc
  k3 := by intro m m'; cases m <;> cases m' <;> decide
  k4 := by intro m; cases m <;> decide

/-- Another assignment that 30 R56 admits. -/
def otherOpc : Mnemonic → Byte
  | .ldi => 0x80
  | .prn => 0x40
  | .mul => 0x81
  | .add => 0x82
  | .cmp => 0x83
  | .jmp => 0x50
  | .jeq => 0x41
  | .jne => 0x42
  | .hlt => 0x00

theorem witness_otherOpc_valid : ValidOpc otherOpc where
  k1 := by intro m; cases m <;> rfl
  k2 := by intro m; cases m <;> rfl
  k3 := by intro m m'; cases m <;> cases m' <;> decide
  k4 := by intro m; cases m <;> decide

/-- AnyAdmissibleOpcodes: a state with an instruction's bytes under that assignment at the top of memory. -/
theorem witness_AnyAdmissibleOpcodes :
    (machineAt 0xFF [0x82, 0x01, 0x07]).run = .running ∧
      (machineAt 0xFF [0x82, 0x01, 0x07]).BytesAtPc (encodeWith otherOpc (.add 1 7)) := by
  refine ⟨rfl, ?_⟩
  unfold State.BytesAtPc
  decide

/-- A memory that lists the first and the last address. -/
def twoCells : Memory := [(0, 0x01), (255, 0xFF)]

/-- MemWriteThenRead, ListedCellsAreReads, EqualReadsEqualMemory, InitializeGivesReset: canonical memory that is not empty,
and two different addresses. -/
theorem witness_canonical_memory :
    Memory.wf twoCells = true ∧ Memory.wf (State.ram { State.reset with ram := twoCells }) = true ∧
      (0x00 : Byte) ≠ 0xFF ∧ (255, 0xFF) ∈ twoCells ∧ (1, 0x00) ∉ twoCells ∧
      (∀ a : Byte, Memory.read twoCells a.toNat = Memory.read (Memory.write twoCells 9 0x00) a.toNat) := by
  refine ⟨by decide, by decide, by decide, by decide, by decide, fun a => rfl⟩

/-- LaunchPlacesImage at its greatest length, LongImageRefused at its least. -/
theorem witness_image_lengths :
    (List.replicate 256 (0x01 : Byte)).length ≤ 256 ∧ 256 < (List.replicate 257 (0x01 : Byte)).length := by
  rw [List.length_replicate, List.length_replicate]
  decide

/-- AssembledInstructionRuns: a program that fits. -/
theorem witness_AssembledInstructionRuns : (assemble ([.ldi 0 8] ++ .prn 0 :: [.hlt])).length ≤ 256 := by decide

/-- StatusPortReports and StepEnabledIffRunning: a state in each run state. -/
theorem witness_run_states :
    State.reset.run = .running ∧ (State.reset.setRun .halted).run = .halted ∧
      (State.reset.setRun .faulted).run = .faulted := ⟨rfl, rfl, rfl⟩

/-- OutputTextIsDecimal: the values where the numeral's length changes, and the texts of 0, 64 and 255. -/
theorem witness_OutputTextIsDecimal :
    (decimalDigits 0).head? = some 0 ∧ [0, 9, 10, 99, 100, 255].map decimalDigits =
      [[0], [9], [1, 0], [9, 9], [1, 0, 0], [2, 5, 5]] ∧
    [0, 64, 255].map decimalLine = [['0', '\n'], ['6', '4', '\n'], ['2', '5', '5', '\n']] := by decide

/-- StepRunsDecodedInstruction: bytes that straddle the top of memory, with a byte after the instruction. -/
theorem witness_StepRunsDecodedInstruction :
    (machineAt 0xFF [0x54, 0x09, 0x77]).run = .running ∧
      (machineAt 0xFF [0x54, 0x09, 0x77]).BytesAtPc [0x54, 0x09, 0x77] ∧
      decode [0x54, 0x09, 0x77] = .ok (.jmp 9, [0x77]) := by
  refine ⟨rfl, ?_, rfl⟩
  unfold State.BytesAtPc
  decide

/-- UnknownOpcodeTakesDecodeError: the reset state, whose first byte is 0x00. -/
theorem witness_UnknownOpcodeTakesDecodeError :
    State.reset.run = .running ∧
      State.reset.readByte State.reset.pc ∉ [0x82, 0x47, 0xA2, 0xA0, 0xA7, 0x54, 0x45, 0x46, (0x01 : Byte)] := by decide

/-- OperandFetchWraps: an opcode of each operand count, the last two at the top of memory. -/
theorem witness_OperandFetchWraps :
    opCount ((machineAt 0 [0x01]).readByte 0) = 0 ∧ opCount ((machineAt 0xFF [0x47]).readByte 0xFF) = 1 ∧
      opCount ((machineAt 0xFE [0xA7]).readByte 0xFE) = 2 := by decide

/-- AutoAdvanceAfterEffect, LegalOperandsNeverFault and every completion statement: opcodes of both kinds, the greatest legal
register operand, both values of E, an instruction of each kind, a well-formed and an ill-formed one. -/
theorem witness_legal_operands :
    setsPc 0x01 = false ∧ setsPc 0x54 = true ∧ (0x07 : Byte).toNat < 8 ∧ (0x00 : Byte).toNat < 8 ∧
      (State.reset.setFl 0x01).fl.getLsbD 0 = true ∧ (State.reset.setFl 0x06).fl.getLsbD 0 = false ∧
      Instr.wellFormed (.add 7 0) = true ∧ Instr.wellFormed (.jeq 7) = true ∧ Instr.wellFormed (.jeq 8) = false := by decide
theorem witness_illformed_completes : ∃ t, exec (.jeq 8) State.reset = .next t ∧ t.run = .faulted := ⟨_, rfl, rfl⟩

/-- CmpCompletes: register values in each order. -/
theorem witness_CmpCompletes :
    (State.reset.getReg 0).toNat = (State.reset.getReg 1).toNat ∧ (State.reset.getReg 0).toNat < (State.reset.getReg 7).toNat := by
  decide

/-- PcAfterStep, OnlyHltHalts, OutputByPrnAlone, FaultsArePrecise: a step for each opcode byte, and one for each cause. -/
theorem witness_step_hlt : ∃ t, step (machineAt 0xFF [0x01]) = .next t ∧ t.run = .halted := ⟨_, rfl, rfl⟩
theorem witness_step_prn :
    (∃ t, step (machineAt 0xFE [0x47, 0x07]) = .next t ∧ t.run ≠ .faulted) ∧
      ((machineAt 0xFE [0x47, 0x07]).readByte (wrap (0xFE + 1))).toNat < 8 := ⟨⟨_, rfl, by decide⟩, by decide⟩
theorem witness_step_ldi : ∃ t, step (machineAt 0xFD [0x82, 0x07, 0xFF]) = .next t ∧ t.getReg 7 ≠ State.reset.getReg 7 :=
  ⟨_, rfl, by decide⟩
theorem witness_step_mul : ∃ t, step (machineAt 0 [0xA2, 0x07, 0x00]) = .next t ∧ t.getReg 7 ≠ State.reset.getReg 7 :=
  ⟨_, rfl, by decide⟩
theorem witness_step_add : ∃ t, step (machineAt 0 [0xA0, 0x00, 0x07]) = .next t ∧ t.getReg 0 ≠ State.reset.getReg 0 :=
  ⟨_, rfl, by decide⟩
theorem witness_step_cmp : ∃ t, step (machineAt 0 [0xA7, 0x00, 0x07]) = .next t ∧ t.run ≠ .faulted := ⟨_, rfl, by decide⟩
theorem witness_step_jumps :
    (∃ t, step (machineAt 0 [0x54, 0x07]) = .next t ∧ t.run ≠ .faulted) ∧
    (∃ t, step (machineAt 0 [0x45, 0x07]) = .next t ∧ t.run ≠ .faulted) ∧
    (∃ t, step (machineAt 0 [0x46, 0x07]) = .next t ∧ t.run ≠ .faulted) :=
  ⟨⟨_, rfl, by decide⟩, ⟨_, rfl, by decide⟩, ⟨_, rfl, by decide⟩⟩
theorem witness_step_decodeError : ∃ t, step (machineAt 0 [0x00]) = .next t ∧ t.run = .faulted := ⟨_, rfl, rfl⟩
theorem witness_step_regIndex :
    (∃ t, step (machineAt 0 [0xA7, 0x07, 0x08]) = .next t ∧ t.run = .faulted) ∧
      7 < ((machineAt 0 [0x47, 0x08]).readByte (wrap (0 + 1))).toNat := ⟨⟨_, rfl, rfl⟩, by decide⟩

/-- BadRegisterTakesRegIndexFault: the first and the second operand at the edge. -/
theorem witness_BadRegister :
    (Instr.regOperands (.mul 7 8)).find? (fun c => decide (7 < c.toNat)) = some 8 ∧
      (Instr.regOperands (.cmp 255 8)).find? (fun c => decide (7 < c.toNat)) = some 255 := by decide

/-- The frames: next states with legal and with illegal operands. -/
theorem witness_frames_legal :
    (∃ t, exec (.ldi 7 1) State.reset = .next t) ∧ (∃ t, exec (.mul 7 0) State.reset = .next t) ∧
    (∃ t, exec (.add 0 7) State.reset = .next t) ∧ (∃ t, exec (.cmp 7 7) State.reset = .next t) ∧
    (∃ t, exec (.prn 7) State.reset = .next t) ∧ (∃ t, exec (.jmp 7) State.reset = .next t) ∧
    (∃ t, exec (.jeq 7) State.reset = .next t) ∧ (∃ t, exec (.jne 7) State.reset = .next t) ∧
    (∃ t, exec .hlt State.reset = .next t) :=
  ⟨⟨_, rfl⟩, ⟨_, rfl⟩, ⟨_, rfl⟩, ⟨_, rfl⟩, ⟨_, rfl⟩, ⟨_, rfl⟩, ⟨_, rfl⟩, ⟨_, rfl⟩, ⟨_, rfl⟩⟩
theorem witness_frames_illegal :
    (∃ t, exec (.cmp 7 8) State.reset = .next t) ∧ Instr.wellFormed (.cmp 7 8) = false ∧
    (∃ t, exec (.prn 8) State.reset = .next t) ∧ Instr.wellFormed (.prn 8) = false ∧
    (∃ t, exec (.jne 8) State.reset = .next t) ∧ Instr.wellFormed (.jne 8) = false :=
  ⟨⟨_, rfl⟩, rfl, ⟨_, rfl⟩, rfl, ⟨_, rfl⟩, rfl⟩

/-- FlagRegisterDiscipline: an instruction that is no CMP and no conditional jump, and flag bytes that agree in bit 0 alone. -/
theorem witness_FlagRegisterDiscipline :
    (∀ a b : Byte, Instr.add 0 7 ≠ .cmp a b ∧ Instr.add 0 7 ≠ .jeq a ∧ Instr.add 0 7 ≠ .jne a) ∧
      Instr.wellFormed (.cmp 0 7) = true ∧ (0xFE : Byte).getLsbD 0 = State.reset.fl.getLsbD 0 :=
  ⟨fun _ _ => ⟨nofun, nofun, nofun⟩, rfl, rfl⟩

/-- UnnamedRegisterIrrelevant: R7 is named by neither operand. -/
theorem witness_UnnamedRegisterIrrelevant : ∀ b ∈ Instr.regOperands (.add 0 6), b.toNat ≠ (7 : Fin 8).val := by decide

/-- RegistersWrittenBy: a step that changes a register (witness_step_ldi). RamReadByFetchOnly: another memory with the same
instruction at the program counter. -/
theorem witness_RamReadByFetchOnly :
    State.fetchBytes { machineAt 0 [0x47, 0x07] with ram := [(0, 0x47), (1, 0x07), (2, 0x99), (255, 0x01)] } =
      (machineAt 0 [0x47, 0x07]).fetchBytes := by decide

/-- RunsKeepRam and RunsOnlyAppendOutput: a run with an end. -/
theorem witness_run_ends :
    ∃ t, Host.Core.run Sys2Proof.core 1 (machineAt 0 [0x47, 0x07]) = .next t ∧ t.out = [0xF4] := ⟨_, rfl, rfl⟩

/-- JumpToSelfNeverEnds: `JMP R7` at 0xF4 in the reset state. -/
theorem witness_JumpToSelfNeverEnds :
    (machineAt 0xF4 [0x54, 0x07]).run = .running ∧ (machineAt 0xF4 [0x54, 0x07]).BytesAtPc [0x54, 0x07] ∧
      (machineAt 0xF4 [0x54, 0x07]).getReg 7 = (machineAt 0xF4 [0x54, 0x07]).pc := by
  refine ⟨rfl, ?_, by decide⟩
  unfold State.BytesAtPc
  decide

/-- StepsKeepInvariant: a state with canonical RAM and a set flag that meets the invariant and steps. -/
theorem witness_StepsKeepInvariant :
    ((machineAt 0 [0xA7, 0x00, 0x07]).setFl 0x02).Inv ∧
      ∃ t, step ((machineAt 0 [0xA7, 0x00, 0x07]).setFl 0x02) = .next t :=
  ⟨{ ramCanonical := by decide
     flagLegal := by decide
     faultIff := by decide
     faultTrue := nofun
     haltedPastHlt := nofun }, _, rfl⟩

/-- HaltingStepIsNormalEnd: a state that meets the invariant, with an earlier CMP's flag and output, whose step is HLT's. -/
theorem witness_HaltingStepIsNormalEnd :
    (((machineAt 0xFF [0x01]).setFl 0x04).emit 8).Inv ∧
      ∃ t, step (((machineAt 0xFF [0x01]).setFl 0x04).emit 8) = .next t ∧ t.run = .halted :=
  ⟨{ ramCanonical := by decide
     flagLegal := by decide
     faultIff := by decide
     faultTrue := nofun
     haltedPastHlt := nofun }, _, rfl, rfl⟩

/-- EveryRunMeetsInvariant: an image that launches and a step of its run. -/
theorem witness_EveryRunMeetsInvariant :
    ∃ s t, launch [0x82, 0x00, 0x08] = .next s ∧ Host.Core.run Sys2Proof.core 1 s = .next t ∧ t.getReg 0 = 8 :=
  ⟨_, _, rfl, rfl, rfl⟩

end Sys2Proof.Tests
end

section
/-! The flag register as a resource (spec 10 R16): replacing `fl` commutes with every shared operation, hence with every
instruction that neither writes it (CMP) nor reads it (JEQ and JNE, which read bit 0). -/

namespace Sys2Proof.Machine

@[simp] theorem mapNext_next (f : State → State) (s : State) : mapNext f (.next s) = .next (f s) := rfl

@[simp] theorem State.setFl_self (s : State) : s.setFl s.fl = s := rfl

@[simp] theorem State.setFl_setFl (s : State) (u v : Byte) : (s.setFl u).setFl v = s.setFl v := rfl

@[simp] theorem State.getReg_setFl (s : State) (v : Byte) (r : Fin 8) : (s.setFl v).getReg r = s.getReg r := rfl

/-- The engine's auto-advance passes the flag register through. -/
theorem State.autoAdvance_setFl (s : State) (v ir : Byte) :
    (s.setFl v).autoAdvance ir = (s.autoAdvance ir).setFl v := by
  rw [State.autoAdvance_eq, State.autoAdvance_eq]
  rfl

/-- A register operand's check passes the flag register through, when the rest of the instruction does. -/
theorem State.withReg_setFl (s : State) (v a : Byte) {k l : Fin 8 → State} (h : ∀ r, l r = (k r).setFl v) :
    (s.setFl v).withReg a l = (s.withReg a k).setFl v := by
  rcases Nat.lt_or_ge a.toNat 8 with ha | ha
  · rw [State.withReg_of_lt _ ha, State.withReg_of_lt _ ha, h]
  · rw [State.withReg_of_ge _ ha, State.withReg_of_ge _ ha]
    rfl

/-- The check of two register operands passes the flag register through, when the rest of the instruction does. -/
theorem State.withRegs_setFl (s : State) (v a b : Byte) {k l : Fin 8 → Fin 8 → State}
    (h : ∀ r q, l r q = (k r q).setFl v) : (s.setFl v).withRegs a b l = (s.withRegs a b k).setFl v :=
  s.withReg_setFl v a fun r => s.withReg_setFl v b (h r)

/-- Every instruction but CMP passes another flag byte through to its outcome, if the byte agrees in bit 0 where the
instruction is a conditional jump. -/
theorem exec_setFl {i : Instr} {s : State} {v : Byte} (hcmp : ∀ a b, i ≠ .cmp a b)
    (hE : ∀ a, i = .jeq a ∨ i = .jne a → flagE v = flagE s.fl) :
    exec i (s.setFl v) = mapNext (fun t => t.setFl v) (exec i s) := by
  cases i with
  | ldi a imm => exact congrArg _ (s.withReg_setFl v a fun r => State.autoAdvance_setFl (s.setReg r imm) v _)
  | prn a => exact congrArg _ (s.withReg_setFl v a fun r => State.autoAdvance_setFl (s.emit (s.getReg r)) v _)
  | mul a b => exact congrArg _ (s.withRegs_setFl v a b fun r q =>
      State.autoAdvance_setFl (s.setReg r (aluMul (s.getReg r) (s.getReg q))) v _)
  | add a b => exact congrArg _ (s.withRegs_setFl v a b fun r q =>
      State.autoAdvance_setFl (s.setReg r (aluAdd (s.getReg r) (s.getReg q))) v _)
  | cmp a b => exact absurd rfl (hcmp a b)
  | jmp a => exact congrArg _ (s.withReg_setFl v a fun r => State.autoAdvance_setFl (s.setPc (s.getReg r)) v _)
  | jeq a =>
    refine congrArg _ (s.withReg_setFl v a fun r => ?_)
    rw [State.setFl_fl, hE a (.inl rfl)]
    exact State.autoAdvance_setFl (s.jumpIf (flagE s.fl) r) v _
  | jne a =>
    refine congrArg _ (s.withReg_setFl v a fun r => ?_)
    rw [State.setFl_fl, hE a (.inr rfl)]
    exact State.autoAdvance_setFl (s.jumpIf (!flagE s.fl) r) v _
  | hlt => exact congrArg _ (State.autoAdvance_setFl (s.setRun .halted) v _)

/-- No instruction but CMP writes the flag register: by `exec_setFl` the old byte can be put back without a change. -/
theorem exec_fl_of_ne_cmp {i : Instr} {s t : State} (hcmp : ∀ a b, i ≠ .cmp a b) (h : exec i s = .next t) :
    t.fl = s.fl := by
  have hsame := exec_setFl (s := s) (v := s.fl) hcmp fun _ _ => rfl
  rw [State.setFl_self, h, mapNext_next] at hsame
  injection hsame with ht
  rw [ht, State.setFl_fl]

/-- CMP with legal operands replaces the whole flag byte, so the old one leaves no trace. -/
theorem execCmp_setFl (s : State) (v : Byte) {a b : Byte} (ha : a.toNat < 8) (hb : b.toNat < 8) :
    execCmp a b (s.setFl v) = execCmp a b s := by
  rw [execCmp, execCmp, State.withRegs_of_lt _ ha hb, State.withRegs_of_lt _ ha hb]
  rfl

/-- Settles O43: writing and reading of `fl` both follow from `exec_setFl`; CMP alone is apart. -/
theorem flagRegisterDiscipline : Obligations.FlagRegisterDiscipline := by
  refine ⟨fun i s t hcmp h => exec_fl_of_ne_cmp hcmp h, fun a b v s hwf => ?_, fun i s v hi => ?_,
    fun a v s hE => ⟨exec_setFl nofun fun _ _ => hE, exec_setFl nofun fun _ _ => hE⟩⟩
  · obtain ⟨ha, hb⟩ : a.toNat < 8 ∧ b.toNat < 8 := by simpa [Instr.wellFormed, Instr.regOperands] using hwf
    exact execCmp_setFl s v ha hb
  · have hjump (a : Byte) : ¬ (i = .jeq a ∨ i = .jne a) := not_or.mpr (hi a 0).2
    exact exec_setFl (fun a b => (hi a b).1) fun a h => absurd h (hjump a)

end Sys2Proof.Machine
end

section
/-! A RAM write as the machine sees it (spec 20 R30 to R32): `Memory.read_write` restated for a state's cells, whose
addresses are bytes. -/

namespace Sys2Proof.Machine

/-- What a cell reads as after a RAM write. -/
theorem State.readByte_writeByte {s : State} (w : Memory.wf s.ram = true) (a v b : Byte) :
    (s.writeByte a v).readByte b = if b = a then v else s.readByte b := by
  simp only [State.readByte, State.writeByte_ram, Memory.read_write w, BitVec.toNat_inj]

/-- Settles O9: the two cases of `State.readByte_writeByte`; by its definition the write sets no field but `ram`. -/
theorem memWriteThenRead : Obligations.MemWriteThenRead := by
  intro s a v w
  refine ⟨?same, fun b hb => ?other, rfl⟩
  case same => rw [State.readByte_writeByte w, if_pos rfl]
  case other => rw [State.readByte_writeByte w, if_neg hb]

end Sys2Proof.Machine
end

section
/-! What an instruction does, in one equation for the whole instruction set: with legal register operands the effect of
its rule and the auto-advance (spec 40 R75, R76), else RegIndexFault on the first illegal operand (60 R152, R154). -/

namespace Sys2Proof

/-- The check of an instruction's register operands, as a property of each (30 R54). -/
theorem Instr.wellFormed_iff {i : Instr} : i.wellFormed = true ↔ ∀ b ∈ i.regOperands, b.toNat < 8 := by
  simp [Instr.wellFormed]

/-- An instruction with one register operand, and that legal, is well-formed. -/
theorem Instr.wellFormed_of_lt {i : Instr} {a : Byte} (hi : i.regOperands = [a]) (ha : a.toNat < 8) :
    i.wellFormed = true :=
  Instr.wellFormed_iff.mpr (by simpa [hi] using ha)

/-- An instruction with two register operands, and those legal, is well-formed. -/
theorem Instr.wellFormed_of_lt_lt {i : Instr} {a b : Byte} (hi : i.regOperands = [a, b]) (ha : a.toNat < 8)
    (hb : b.toNat < 8) : i.wellFormed = true :=
  Instr.wellFormed_iff.mpr (by simpa [hi] using And.intro ha hb)

/-- The check finds nothing exactly when no register operand is above 7. -/
theorem Instr.find_eq_none {i : Instr} :
    i.regOperands.find? (fun c => decide (7 < c.toNat)) = none ↔ i.wellFormed = true := by
  simp [Instr.wellFormed, Nat.lt_succ_iff]

/-- Register operands are among the operand bytes. -/
theorem Instr.mem_operandBytes {i : Instr} {b : Byte} (h : b ∈ i.regOperands) : b ∈ i.operandBytes := by
  cases i with
  | ldi a imm => exact List.mem_cons.mpr (.inl (List.mem_singleton.mp h))
  | prn | mul | add | cmp | jmp | jeq | jne | hlt => exact h

end Sys2Proof

namespace Sys2Proof.Machine

/-- The register a byte names, read modulo 8; only the bytes 0 to 7 are used (`operandReg_of_lt`). -/
def operandReg (b : Byte) : Fin 8 := Fin.ofNat 8 b.toNat

theorem operandReg_of_lt {b : Byte} (h : b.toNat < 8) : operandReg b = ⟨b.toNat, h⟩ :=
  Fin.ext (Nat.mod_eq_of_lt h)

/-- Item 4 of the cycle for an instruction with legal register operands: its effect, before the auto-advance. -/
def effect (i : Instr) (s : State) : State :=
  match i with
  | .ldi a imm => s.setReg (operandReg a) imm
  | .prn a => s.emit (s.getReg (operandReg a))
  | .mul a b => s.setReg (operandReg a) (aluMul (s.getReg (operandReg a)) (s.getReg (operandReg b)))
  | .add a b => s.setReg (operandReg a) (aluAdd (s.getReg (operandReg a)) (s.getReg (operandReg b)))
  | .cmp a b => s.setFl (compareFlags (s.getReg (operandReg a)) (s.getReg (operandReg b)))
  | .jmp a => s.setPc (s.getReg (operandReg a))
  | .jeq a => s.jumpIf (flagE s.fl) (operandReg a)
  | .jne a => s.jumpIf (!flagE s.fl) (operandReg a)
  | .hlt => s.setRun .halted

/-- Items 4 and 5 of the cycle for an instruction with legal register operands. -/
def completed (i : Instr) (s : State) : State := (effect i s).autoAdvance (opc i.mnemonic)

theorem State.withReg_of_legal (s : State) {a : Byte} (h : a.toNat < 8) (k : Fin 8 → State) :
    s.withReg a k = k (operandReg a) := by
  rw [s.withReg_of_lt h, operandReg_of_lt h]

theorem State.withRegs_of_legal (s : State) {a b : Byte} (ha : a.toNat < 8) (hb : b.toNat < 8)
    (k : Fin 8 → Fin 8 → State) : s.withRegs a b k = k (operandReg a) (operandReg b) := by
  rw [s.withRegs_of_lt ha hb, operandReg_of_lt ha, operandReg_of_lt hb]

/-- The first of two register operands that is above 7 raises RegIndexFault. -/
theorem State.withRegs_of_find (s : State) {a b c : Byte} (k : Fin 8 → Fin 8 → State)
    (h : [a, b].find? (fun c => decide (7 < c.toNat)) = some c) :
    s.withRegs a b k = s.raiseFault .regIndex s.pc c := by
  rcases s.withRegs_cases a b k with ⟨ha, hb, -⟩ | ⟨ha, e⟩ | ⟨ha, hb, e⟩
  · simp [Nat.le_of_lt_succ ha, Nat.le_of_lt_succ hb] at h
  · have hac : a = c := by simpa [show 7 < a.toNat from ha] using h
    rw [e, hac]
  · have hbc : b = c := by simpa [Nat.le_of_lt_succ ha, show 7 < b.toNat from hb] using h
    rw [e, hbc]

/-- A single register operand above 7 raises RegIndexFault. -/
theorem State.withReg_of_find (s : State) {a c : Byte} (k : Fin 8 → State)
    (h : [a].find? (fun c => decide (7 < c.toNat)) = some c) : s.withReg a k = s.raiseFault .regIndex s.pc c := by
  obtain ⟨ha, rfl⟩ : 7 < a.toNat ∧ a = c := by simpa [List.find?_cons_eq_some] using h
  exact s.withReg_of_ge ha k

/-- An instruction with legal register operands completes. -/
theorem exec_of_wellFormed {i : Instr} (h : i.wellFormed = true) (s : State) : exec i s = .next (completed i s) := by
  have hb := Instr.wellFormed_iff.mp h
  cases i with
  | ldi a | prn a | jmp a | jeq a | jne a =>
    exact congrArg _ (s.withReg_of_legal (hb a (List.mem_singleton_self a)) _)
  | mul a b | add a b | cmp a b =>
    exact congrArg _ (s.withRegs_of_legal (hb a (List.mem_cons_self ..)) (hb b (by simp [Instr.regOperands])) _)
  | hlt => rfl

/-- An instruction with an illegal register operand raises RegIndexFault on the first such operand. -/
theorem exec_of_find {i : Instr} {b : Byte} (h : i.regOperands.find? (fun c => decide (7 < c.toNat)) = some b)
    (s : State) : exec i s = .next (s.raiseFault .regIndex s.pc b) := by
  cases i with
  | ldi a | prn a | jmp a | jeq a | jne a => exact congrArg _ (s.withReg_of_find _ h)
  | mul a b | add a b | cmp a b => exact congrArg _ (s.withRegs_of_find _ h)
  | hlt => cases h

/-- Everything an instruction can do: it completes, or an illegal register operand raises RegIndexFault. -/
theorem exec_next_cases {i : Instr} {s t : State} (h : exec i s = .next t) :
    (i.wellFormed = true ∧ t = completed i s) ∨
      (i.wellFormed = false ∧ ∃ b ∈ i.regOperands, 7 < b.toNat ∧ t = s.raiseFault .regIndex s.pc b) := by
  cases hb : i.regOperands.find? (fun c => decide (7 < c.toNat)) with
  | none =>
    have hw := Instr.find_eq_none.mp hb
    rw [exec_of_wellFormed hw] at h
    exact .inl ⟨hw, (Host.Outcome.next.inj h).symm⟩
  | some b =>
    have hm := List.mem_of_find?_eq_some hb
    have h7 : 7 < b.toNat := by simpa using List.find?_some hb
    rw [exec_of_find hb] at h
    refine .inr ⟨?_, b, hm, h7, (Host.Outcome.next.inj h).symm⟩
    exact Bool.eq_false_iff.mpr fun hw => absurd (Instr.wellFormed_iff.mp hw b hm) (by omega)

end Sys2Proof.Machine
end

section
/-! The fields of the state after an instruction has completed: which one an instruction sets and to what, and which
ones no instruction touches. -/

namespace Sys2Proof.Machine

variable (i : Instr) (s : State) (ir : Byte)

@[simp] theorem State.autoAdvance_x : (s.autoAdvance ir).x = s.x := by rw [State.autoAdvance_eq]; rfl
@[simp] theorem State.autoAdvance_ram : (s.autoAdvance ir).ram = s.ram := by rw [State.autoAdvance_eq]; rfl
@[simp] theorem State.autoAdvance_fl : (s.autoAdvance ir).fl = s.fl := by rw [State.autoAdvance_eq]; rfl
@[simp] theorem State.autoAdvance_run : (s.autoAdvance ir).run = s.run := by rw [State.autoAdvance_eq]; rfl
@[simp] theorem State.autoAdvance_fault : (s.autoAdvance ir).fault = s.fault := by rw [State.autoAdvance_eq]; rfl
@[simp] theorem State.autoAdvance_out : (s.autoAdvance ir).out = s.out := by rw [State.autoAdvance_eq]; rfl

/-- No instruction stores to RAM (spec 20 R33). -/
@[simp] theorem completed_ram : (completed i s).ram = s.ram := by
  rw [completed, State.autoAdvance_ram]
  cases i <;> rfl

/-- No completed instruction touches the fault record. -/
@[simp] theorem completed_fault : (completed i s).fault = s.fault := by
  rw [completed, State.autoAdvance_fault]
  cases i <;> rfl

/-- Only HLT sets the run state. -/
theorem completed_run : (completed i s).run = if i = .hlt then .halted else s.run := by
  rw [completed, State.autoAdvance_run]
  cases i <;> rfl

/-- PRN appends its register's value to the output, and nothing else writes to it. -/
theorem completed_out : (completed i s).out =
    match i with
    | .prn a => s.out ++ [s.getReg (operandReg a)]
    | _ => s.out := by
  rw [completed, State.autoAdvance_out]
  cases i <;> rfl

/-- The flag register after CMP is what COMPARE gives; nothing else writes to it. -/
theorem completed_fl : (completed i s).fl =
    match i with
    | .cmp a b => compareFlags (s.getReg (operandReg a)) (s.getReg (operandReg b))
    | _ => s.fl := by
  rw [completed, State.autoAdvance_fl]
  cases i <;> rfl

end Sys2Proof.Machine
end

section
/-! Decoder and encoder (spec 30): the round trip for every opcode assignment with different bytes, and the decoder's
answers on all bytes. -/

namespace Sys2Proof

/-- Decoding an encoding gives the instruction back, for every assignment of pairwise different opcodes. -/
theorem decodeWith_encodeWith {o : Mnemonic → Byte} (ho : ∀ m m', o m = o m' → m = m') (i : Instr) (rest : List Byte) :
    decodeWith o (encodeWith o i ++ rest) = .ok (i, rest) := by
  simp only [encodeWith, List.cons_append, decodeWith, mnemonicWith_self ho, takeOperands_operandBytes]

/-- The nine opcode bytes are pairwise different (30 R56 K3). -/
theorem opc_injective (m m' : Mnemonic) (h : opc m = opc m') : m = m' := by
  revert h
  cases m <;> cases m' <;> decide

/-- Settles O3: `decodeWith_encodeWith` for this machine's opcodes. -/
theorem decodeInvertsEncode : Obligations.DecodeInvertsEncode :=
  decodeWith_encodeWith opc_injective

/-- Bytes that decode are the instruction's encoding and the bytes left over. -/
theorem decode_ok {bs rest : List Byte} {i : Instr} (h : decode bs = .ok (i, rest)) : bs = encode i ++ rest :=
  decodeWith_ok h

end Sys2Proof
end

section
/-! The bytes at the program counter (spec 40 R71 to R74), and what a step can do with them. -/

namespace Sys2Proof.Machine

/-- The fetched bytes stand at the program counter. -/
theorem State.bytesAtPc_fetchBytes (s : State) : s.BytesAtPc s.fetchBytes := by
  intro k h
  simp [State.fetchBytes]

/-- An encoding that stands at the program counter is what is fetched, under any assignment that has each opcode's
operand count in its bits 7:6. -/
theorem State.fetchBytes_of_bytesAtPc {s : State} {o : Mnemonic → Byte} (ho : ∀ m, opCount (o m) = m.operandCount)
    {i : Instr} (h : s.BytesAtPc (encodeWith o i)) : s.fetchBytes = encodeWith o i := by
  have hpc : o i.mnemonic = s.readByte s.pc := by simpa [encodeWith] using h 0 (Nat.succ_pos _)
  have hlen : s.fetchBytes.length = (encodeWith o i).length := by
    rw [s.fetchBytes_length, ← hpc, ho, encodeWith, List.length_cons, i.operandBytes_length, Nat.add_comm]
  refine List.ext_getElem hlen fun k hk hk' => ?_
  rw [h k hk', s.bytesAtPc_fetchBytes k hk]

/-- Bytes that begin with others that stand at the program counter stand there too. -/
theorem State.BytesAtPc.left {s : State} {bs cs : List Byte} (h : s.BytesAtPc (bs ++ cs)) : s.BytesAtPc bs := by
  intro k hk
  rw [← h k (by rw [List.length_append]; omega), List.getElem_append_left hk]

/-- The opcode byte of an encoding that stands at the program counter. -/
theorem State.BytesAtPc.readByte_pc {s : State} {i : Instr} (h : s.BytesAtPc (encode i)) :
    s.readByte s.pc = opc i.mnemonic := by
  simpa [encode, encodeWith] using (h 0 (Nat.succ_pos _)).symm

/-- The register operands of an encoding that stands at the program counter are among the bytes fetched after it. -/
theorem State.BytesAtPc.mem_fetchBytes_tail {s : State} {i : Instr} (h : s.BytesAtPc (encode i)) {b : Byte}
    (hb : b ∈ i.regOperands) : b ∈ s.fetchBytes.tail := by
  rw [State.fetchBytes_of_bytesAtPc opCount_opc h]
  exact Instr.mem_operandBytes hb

/-- What is fetched and decodes to an instruction is its encoding. -/
theorem State.bytesAtPc_of_decode {s : State} {i : Instr} {rest : List Byte} (h : decode s.fetchBytes = .ok (i, rest)) :
    s.BytesAtPc (encode i) :=
  State.BytesAtPc.left (decode_ok h ▸ s.bytesAtPc_fetchBytes)

/-- A step in a RUNNING state executes the instruction whose encoding stands at the program counter, under any admissible
opcode assignment. -/
theorem cycleWith_of_bytesAtPc {o : Mnemonic → Byte} (ho : ValidOpc o) {s : State} {i : Instr} (hr : s.run = .running)
    (h : s.BytesAtPc (encodeWith o i)) : cycleWith o s = exec i s := by
  have hd := decodeWith_encodeWith ho.k3 i []
  rw [List.append_nil, ← State.fetchBytes_of_bytesAtPc ho.k1 h] at hd
  simp only [cycleWith, hr, hd]

/-- The machine's own opcode assignment is admissible. -/
theorem opc_valid : ValidOpc opc where
  k1 := opCount_opc
  k2 := setsPc_opc
  k3 := opc_injective
  k4 m := by cases m <;> decide

/-- A step in a RUNNING state executes the instruction whose encoding stands at the program counter. -/
theorem step_of_bytesAtPc {s : State} {i : Instr} (hr : s.run = .running) (h : s.BytesAtPc (encode i)) :
    step s = exec i s :=
  cycleWith_of_bytesAtPc opc_valid hr h

/-- Everything a step with a next state can have been: a completed instruction, an instruction with an illegal register
operand, or an unknown opcode. -/
theorem step_cases {s t : State} (h : step s = .next t) :
    s.run = .running ∧
      ((∃ i, s.BytesAtPc (encode i) ∧ i.wellFormed = true ∧ t = completed i s) ∨
        (∃ i, s.BytesAtPc (encode i) ∧ ∃ b ∈ i.regOperands, 7 < b.toNat ∧ t = s.raiseFault .regIndex s.pc b) ∨
        (mnemonicWith opc (s.readByte s.pc) = none ∧ t = s.raiseFault .decodeError s.pc (s.readByte s.pc))) := by
  obtain ⟨hr, ⟨i, hd, -, he⟩ | hu⟩ := step_next_cases h
  · have hi := State.bytesAtPc_of_decode hd
    rcases exec_next_cases he with ⟨hw, ht⟩ | ⟨-, hb⟩
    · exact ⟨hr, .inl ⟨i, hi, hw, ht⟩⟩
    · exact ⟨hr, .inr (.inl ⟨i, hi, hb⟩)⟩
  · exact ⟨hr, .inr (.inr hu)⟩

end Sys2Proof.Machine
end

section
/-! What holds along every run: RAM is constant, output only grows, and the machine's invariant holds. -/

namespace Sys2Proof.Machine

/-- No step writes RAM (spec 20 R33). -/
theorem step_ram {s t : State} (h : step s = .next t) : t.ram = s.ram := by
  obtain ⟨-, ⟨i, -, -, rfl⟩ | ⟨i, -, b, -, -, rfl⟩ | ⟨-, rfl⟩⟩ := step_cases h
  · exact completed_ram i s
  · rfl
  · rfl

/-- Settles O54: `step_ram` along the run. -/
theorem runsKeepRam : Obligations.RunsKeepRam := fun _ s _ h =>
  core_run_induction (P := fun u => u.ram = s.ram) (fun _ _ hu hstep => (step_ram hstep).trans hu) rfl h

/-- A step appends at most one value to the output (10 R22). -/
theorem step_out {s t : State} (h : step s = .next t) : ∃ l : List Byte, t.out = s.out ++ l ∧ l.length ≤ 1 := by
  obtain ⟨-, ⟨i, -, -, rfl⟩ | ⟨i, -, b, -, -, rfl⟩ | ⟨-, rfl⟩⟩ := step_cases h
  · rw [completed_out]
    split
    · exact ⟨_, rfl, le_rfl⟩
    · exact ⟨[], by simp⟩
  · exact ⟨[], by simp⟩
  · exact ⟨[], by simp⟩

/-- Settles O55, by induction on the number of steps with `step_out`. -/
theorem runsOnlyAppendOutput : Obligations.RunsOnlyAppendOutput := by
  intro n
  induction n with
  | zero =>
    intro s t h
    cases h
    exact ⟨[], by simp⟩
  | succ n ih =>
    intro s t h
    obtain ⟨u, hstep, hrun⟩ := core_run_succ_next h
    obtain ⟨l, hl, hl1⟩ := step_out hstep
    obtain ⟨m, hm, hmn⟩ := ih u t hrun
    exact ⟨l ++ m, by rw [hm, hl, List.append_assoc], by rw [List.length_append]; omega⟩

/-- COMPARE gives one of the four flag values of 10 R17. -/
theorem completed_flagLegal {i : Instr} {s : State} (h : s.fl = 0x00 ∨ s.fl = 0x01 ∨ s.fl = 0x02 ∨ s.fl = 0x04) :
    (completed i s).fl = 0x00 ∨ (completed i s).fl = 0x01 ∨ (completed i s).fl = 0x02 ∨ (completed i s).fl = 0x04 := by
  rw [completed_fl]
  split
  · rename_i a b
    rcases compareFlags_cases (s.getReg (operandReg a)) (s.getReg (operandReg b)) with ⟨-, e⟩ | ⟨-, e⟩ | ⟨-, e⟩ <;>
      simp [e]
  · exact h

/-- Taking an exception with a true record keeps the invariant. -/
theorem State.Inv.raiseFault {s : State} (hs : s.Inv) {c : Cause} {b : Byte}
    (hdecode : c = .decodeError → b = s.readByte s.pc ∧ mnemonicWith opc b = none)
    (hreg : c = .regIndex → 7 < b.toNat ∧ b ∈ s.fetchBytes.tail) : (s.raiseFault c s.pc b).Inv where
  ramCanonical := hs.ramCanonical
  flagLegal := hs.flagLegal
  faultIff := by simp
  faultTrue := by
    rintro f ⟨⟩
    exact ⟨rfl, hdecode, hreg⟩
  haltedPastHlt := nofun

/-- A RUNNING state that meets the invariant has recorded no fault. -/
theorem State.Inv.fault_eq_none {s : State} (hs : s.Inv) (hr : s.run ≠ .faulted) : s.fault = none :=
  Option.not_isSome_iff_eq_none.mp (mt hs.faultIff.mp hr)

/-- A completed instruction does not leave the machine FAULTED. -/
theorem completed_run_ne_faulted {i : Instr} {s : State} (hr : s.run = .running) : (completed i s).run ≠ .faulted := by
  rw [completed_run, hr]
  split <;> nofun

/-- Only HLT leaves the machine HALTED. -/
theorem completed_run_halted {i : Instr} {s : State} (hr : s.run = .running) :
    (completed i s).run = .halted ↔ i = .hlt := by
  rw [completed_run, hr]
  by_cases hi : i = .hlt <;> simp [hi]

/-- The byte before the program counter that a completed HLT leaves is its opcode byte. -/
theorem completed_hlt_past {s : State} (hb : s.BytesAtPc (encode .hlt)) :
    (completed .hlt s).readByte (wrap ((completed .hlt s).pc.toNat + 255)) = opc .hlt := by
  have hpc : wrap ((wrap (s.pc.toNat + 1)).toNat + 255) = s.pc := by
    rw [wrap_add_wrap]
    apply BitVec.eq_of_toNat_eq
    rw [toNat_wrap]
    omega
  calc (completed .hlt s).readByte (wrap ((completed .hlt s).pc.toNat + 255))
      = s.readByte (wrap ((wrap (s.pc.toNat + 1)).toNat + 255)) := rfl
    _ = opc .hlt := by rw [hpc, hb.readByte_pc]; rfl

/-- An instruction that completes keeps the invariant. -/
theorem State.Inv.completed {s : State} (hs : s.Inv) (hr : s.run = .running) {i : Instr}
    (hb : s.BytesAtPc (encode i)) : (completed i s).Inv := by
  have hrun := completed_run_ne_faulted (i := i) hr
  have hfault : s.fault = none := hs.fault_eq_none (by simp [hr])
  exact
    { ramCanonical := by rw [completed_ram]; exact hs.ramCanonical
      flagLegal := completed_flagLegal hs.flagLegal
      faultIff := by simp [hfault, hrun]
      faultTrue := by simp [hfault]
      haltedPastHlt := fun hh => by
        obtain rfl := (completed_run_halted hr).mp hh
        exact completed_hlt_past hb }

/-- Settles O58: each of the three things a step can do keeps the invariant. -/
theorem stepsKeepInvariant : Obligations.StepsKeepInvariant := by
  intro s t hs h
  obtain ⟨hr, ⟨i, hb, -, rfl⟩ | ⟨i, hb, b, hm, h7, rfl⟩ | ⟨hu, rfl⟩⟩ := step_cases h
  · exact hs.completed hr hb
  · exact hs.raiseFault nofun fun _ => ⟨h7, hb.mem_fetchBytes_tail hm⟩
  · exact hs.raiseFault (fun _ => ⟨rfl, hu⟩) nofun

/-- Settles O57: the reset state's fields, each read off. -/
theorem resetMeetsInvariant : Obligations.ResetMeetsInvariant where
  ramCanonical := reset_ram_wf
  flagLegal := .inl rfl
  faultIff := by decide
  faultTrue := nofun
  haltedPastHlt := nofun

/-- Loading an image into a RUNNING state keeps the invariant. -/
theorem State.Inv.load {s : State} (hs : s.Inv) (hr : s.run = .running) (image : List Byte) : (s.load image).Inv where
  ramCanonical := State.load_wf hs.ramCanonical image
  flagLegal := by simpa using hs.flagLegal
  faultIff := by simpa using hs.faultIff
  faultTrue := by simp [hs.fault_eq_none (by simp [hr])]
  haltedPastHlt := by simp [hr]

/-- Settles O59: reset and loading give the invariant, every step keeps it. -/
theorem everyRunMeetsInvariant : Obligations.EveryRunMeetsInvariant := by
  intro image n s t hl hrun
  obtain ⟨-, rfl⟩ := launch_next hl
  exact core_run_induction stepsKeepInvariant (resetMeetsInvariant.load rfl image) hrun

/-- Settles O37: by the invariant of the state reached, a HALTED state has no fault record. -/
theorem haltingStepIsNormalEnd : Obligations.HaltingStepIsNormalEnd := fun s t hs h hh =>
  ⟨hh, (stepsKeepInvariant s t hs h).fault_eq_none (by simp [hh])⟩

end Sys2Proof.Machine
end

section
/-! Canonical memory as the function it stands for (spec 20 R30, R31): the list is determined by its reads, and what
placing a run of bytes makes of them. -/

namespace Sys2Proof.Machine

/-- The cells listed are those whose read is not the reset contents. -/
theorem Memory.mem_iff_read {lo : Nat} {m : Memory} (w : Memory.wfFrom lo m = true) {a : Nat} {v : Byte} :
    (a, v) ∈ m ↔ Memory.read m a = v ∧ v ≠ Memory.unlisted := by
  induction m generalizing lo with
  | nil => simp +contextual [Memory.read, eq_comm]
  | cons c m ih =>
    obtain ⟨k, u⟩ := c
    obtain ⟨-, -, hu, hm⟩ := Memory.wfFrom_cons.mp w
    rw [List.mem_cons, ih hm, Memory.read, Prod.mk.injEq]
    by_cases hk : k = a
    · subst hk
      rw [if_pos rfl, Memory.read_below hm (Nat.lt_succ_self k)]
      constructor
      · rintro (⟨-, rfl⟩ | ⟨rfl, hne⟩)
        · exact ⟨rfl, hu⟩
        · exact absurd rfl hne
      · rintro ⟨rfl, -⟩
        exact .inl ⟨rfl, rfl⟩
    · rw [if_neg hk]
      exact or_iff_right fun h => hk h.1.symm

/-- Settles O10: `Memory.mem_iff_read` from address 0 up. -/
theorem listedCellsAreReads : Obligations.ListedCellsAreReads := fun _ _ _ w => Memory.mem_iff_read w

/-- An address beyond the memory's size is unlisted. -/
theorem Memory.read_of_ge {lo a : Nat} {m : Memory} (w : Memory.wfFrom lo m = true) (h : Config.memSize ≤ a) :
    Memory.read m a = Memory.unlisted := by
  induction m generalizing lo with
  | nil => rfl
  | cons c m ih =>
    obtain ⟨k, u⟩ := c
    obtain ⟨-, hk, -, hm⟩ := Memory.wfFrom_cons.mp w
    rw [Memory.read, if_neg (by omega)]
    exact ih hm

/-- Canonical memories that read the same at every address are the same list: by the heads' reads the least listed
addresses agree. -/
theorem Memory.ext_read {lo lo' : Nat} {m m' : Memory} (w : Memory.wfFrom lo m = true)
    (w' : Memory.wfFrom lo' m' = true) (h : ∀ a, Memory.read m a = Memory.read m' a) : m = m' := by
  induction m generalizing lo lo' m' with
  | nil =>
    cases m' with
    | nil => rfl
    | cons c m' =>
      have hc := (Memory.mem_iff_read w').mp (List.mem_cons_self (a := c))
      exact absurd ((h c.1).trans hc.1).symm hc.2
  | cons c m ih =>
    obtain ⟨k, u⟩ := c
    have hc := (Memory.mem_iff_read w).mp List.mem_cons_self
    obtain ⟨-, -, hu, hm⟩ := Memory.wfFrom_cons.mp w
    cases m' with
    | nil => exact absurd (hc.1.symm.trans (h k)) hu
    | cons c' m' =>
      obtain ⟨k', u'⟩ := c'
      have hc' := (Memory.mem_iff_read w').mp List.mem_cons_self
      obtain ⟨-, -, hu', hm'⟩ := Memory.wfFrom_cons.mp w'
      have hlt (hkk : k < k') : False := by
        refine hu (hc.1.symm.trans ((h k).trans ?_))
        exact Memory.read_below (Memory.wfFrom_cons.mpr ⟨le_rfl, (Memory.wfFrom_cons.mp w').2⟩) hkk
      have hgt (hkk : k' < k) : False := by
        refine hu' (hc'.1.symm.trans ((h k').symm.trans ?_))
        exact Memory.read_below (Memory.wfFrom_cons.mpr ⟨le_rfl, (Memory.wfFrom_cons.mp w).2⟩) hkk
      obtain rfl : k = k' := by
        rcases Nat.lt_trichotomy k k' with h | h | h
        · exact (hlt h).elim
        · exact h
        · exact (hgt h).elim
      obtain rfl : u = u' := hc.1.symm.trans ((h k).trans hc'.1)
      refine congrArg _ (ih hm hm' fun a => ?_)
      by_cases ha : k = a
      · rw [← ha, Memory.read_below hm (Nat.lt_succ_self k), Memory.read_below hm' (Nat.lt_succ_self k)]
      · simpa only [Memory.read, if_neg ha] using h a

/-- Canonical memories whose 256 cells read the same are the same list. -/
theorem Memory.ext_readByte {m m' : Memory} (w : Memory.wf m = true) (w' : Memory.wf m' = true)
    (h : ∀ a : Byte, Memory.read m a.toNat = Memory.read m' a.toNat) : m = m' := by
  refine Memory.ext_read w w' fun a => ?_
  rcases Nat.lt_or_ge a 256 with ha | ha
  · simpa [Nat.mod_eq_of_lt ha] using h (wrap a)
  · rw [Memory.read_of_ge w ha, Memory.read_of_ge w' ha]

/-- Settles O11: `Memory.ext_readByte`. -/
theorem equalReadsEqualMemory : Obligations.EqualReadsEqualMemory := fun _ _ => Memory.ext_readByte

/-- What a cell reads as after bytes were placed below the top of memory: the byte placed there, where there is one. -/
theorem State.readByte_placeBytes {s : State} (w : Memory.wf s.ram = true) {a : Nat} {bs : List Byte}
    (h : a + bs.length ≤ 256) (b : Byte) : (s.placeBytes a bs).readByte b =
      if a ≤ b.toNat then bs.getD (b.toNat - a) (s.readByte b) else s.readByte b := by
  induction bs generalizing s a with
  | nil => simp [State.placeBytes]
  | cons c bs ih =>
    rw [List.length_cons] at h
    have hwrite : (s.writeByte (wrap a) c).readByte b = if b.toNat = a then c else s.readByte b := by
      have hiff : b = wrap a ↔ b.toNat = a := by
        rw [← BitVec.toNat_inj, toNat_wrap, Nat.mod_eq_of_lt (by omega)]
      simp only [State.readByte_writeByte w, hiff]
    rw [State.placeBytes, ih (State.writeByte_wf w _ _) (by omega), hwrite]
    rcases Nat.lt_trichotomy b.toNat a with hb | hb | hb
    · simp [show ¬ a + 1 ≤ b.toNat by omega, show b.toNat ≠ a by omega, show ¬ a ≤ b.toNat by omega]
    · simp [hb]
    · rw [if_pos (Nat.succ_le_of_lt hb), if_neg hb.ne', if_pos hb.le, show b.toNat - a = b.toNat - (a + 1) + 1 by omega,
        List.getD_cons_succ]

end Sys2Proof.Machine
end

section
/-! Reset and launch (spec 70 R180, R182; 50 R131, R132). -/

namespace Sys2Proof.Machine

/-- After loading an image each cell holds its byte of the image, and beyond the image what it held. -/
theorem State.readByte_load {s : State} (w : Memory.wf s.ram = true) {image : List Byte} (h : image.length ≤ 256)
    (a : Byte) : (s.load image).readByte a = image.getD a.toNat (s.readByte a) := by
  rw [State.load, State.readByte_placeBytes w (by omega), if_pos (Nat.zero_le _), Nat.sub_zero]

/-- The loop over all 256 addresses leaves no cell listed. -/
theorem State.zeroRam_ram {s : State} (w : Memory.wf s.ram = true) : s.zeroRam.ram = [] := by
  have hlen : (List.replicate Config.memSize Config.ramReset).length ≤ 256 := List.length_replicate.le
  refine Memory.ext_readByte (State.zeroRam_wf w) rfl fun a => ?_
  calc Memory.read s.zeroRam.ram a.toNat
      = (List.replicate Config.memSize Config.ramReset).getD a.toNat (s.readByte a) :=
        State.readByte_load w hlen a
    _ = Config.ramReset := List.getD_replicate _ a.isLt

/-- Settles O13: `State.initialize_eq` for the other fields, `State.zeroRam_ram` for RAM. -/
theorem initializeGivesReset : Obligations.InitializeGivesReset := by
  intro s w
  rw [State.initialize_eq, State.zeroRam_ram (s := s.zeroRegs) w]
  rfl

/-- Settles O14: the launch state is the reset state with the image placed in it. -/
theorem launchPlacesImage : Obligations.LaunchPlacesImage := fun image h =>
  ⟨_, launch_of_le h, State.readByte_load reset_ram_wf h, State.placeBytes_eq _ _ _, State.load_wf reset_ram_wf image⟩

/-- Settles O15: the other branch of `launch`. -/
theorem longImageRefused : Obligations.LongImageRefused := fun _ h => if_neg (Nat.not_le.mpr h)

/-- Settles O12: each field read off, registers one by one. -/
theorem resetValues : Obligations.ResetValues :=
  ⟨rfl, by decide, rfl, fun _ => rfl, rfl, rfl, rfl⟩

end Sys2Proof.Machine
end

section
/-! The decoder's answers on all bytes, and the two fields of the opcode byte (spec 30 R50 to R59). -/

namespace Sys2Proof

open Machine

/-- The bytes that are no opcode, as a list of the nine opcode bytes (30 R55, R57). -/
theorem mnemonicWith_opc_eq_none {ir : Byte} :
    mnemonicWith opc ir = none ↔ ir ∉ [0x82, 0x47, 0xA2, 0xA0, 0xA7, 0x54, 0x45, 0x46, 0x01] := by
  have hlist : [0x82, 0x47, 0xA2, 0xA0, 0xA7, 0x54, 0x45, 0x46, 0x01] = Mnemonic.all.map opc := rfl
  simp only [mnemonicWith_none, hlist, List.mem_map, Mnemonic.mem_all, true_and, not_exists]

/-- An illegal opcode byte is rejected by that byte. -/
theorem decode_unknown {ir : Byte} (h : mnemonicWith opc ir = none) (tl : List Byte) :
    decode (ir :: tl) = .error (.unknownOpcode ir) := by
  simp only [decode, decodeWith, h]

/-- An opcode byte is followed by its operands. -/
theorem decode_opc (m : Mnemonic) (tl : List Byte) : decode (opc m :: tl) = takeOperands m tl := by
  simp only [decode, decodeWith, mnemonicWith_self opc_injective]

/-- Fewer bytes than operands are rejected as truncated. -/
theorem takeOperands_of_length_lt {m : Mnemonic} {bs : List Byte} (h : bs.length < m.operandCount) :
    takeOperands m bs = .error (.truncated m) := by
  match m, bs, h with
  | .ldi, [], _ | .ldi, [_], _ | .mul, [], _ | .mul, [_], _ | .add, [], _ | .add, [_], _ | .cmp, [], _
  | .cmp, [_], _ | .prn, [], _ | .jmp, [], _ | .jeq, [], _ | .jne, [], _ => rfl

/-- Settles O4: by the first byte, and behind a known opcode by the number of bytes that follow it. -/
theorem decoderAnswers : Obligations.DecoderAnswers := by
  intro bs
  cases bs with
  | nil => exact .inr (.inl ⟨rfl, rfl⟩)
  | cons ir tl =>
    cases hm : mnemonicWith opc ir with
    | none => exact .inr (.inr (.inl ⟨ir, tl, rfl, decode_unknown hm tl, mnemonicWith_opc_eq_none.mp hm⟩))
    | some m =>
      obtain rfl := mnemonicWith_sound hm
      rcases Nat.lt_or_ge tl.length m.operandCount with hl | hl
      · refine .inr (.inr (.inr ⟨m, tl, rfl, ?_, by rwa [opCount_opc]⟩))
        rw [decode_opc, takeOperands_of_length_lt hl]
      · obtain ⟨i, rest, hi⟩ := takeOperands_of_length hl
        have hd := (decode_opc m tl).trans hi
        exact .inl ⟨i, rest, hd, decode_ok hd⟩

/-- A byte with bits 7:6 = 0b11 is no opcode: no instruction has three operands (30 R58). -/
theorem mnemonicWith_of_opCount {ir : Byte} (h : opCount ir = 3) : mnemonicWith opc ir = none := by
  refine mnemonicWith_none.mpr fun m hm => ?_
  rw [← hm, opCount_opc] at h
  cases m <;> cases h

/-- The byte values that are opcodes are, in some order, those of the nine mnemonics. -/
theorem knownOpcodes_perm :
    ((List.range 256).filter fun n => !(mnemonicWith opc (wrap n)).isNone).Perm
      (Mnemonic.all.map fun m => (opc m).toNat) := by
  refine (List.perm_ext_iff_of_nodup (List.nodup_range.filter _) (by decide)).mpr fun n => ?_
  rw [List.mem_filter, List.mem_range, List.mem_map]
  constructor
  · rintro ⟨hn, hk⟩
    obtain ⟨m, hm⟩ := Option.isSome_iff_exists.mp (by simpa using hk)
    refine ⟨m, m.mem_all, ?_⟩
    rw [mnemonicWith_sound hm, toNat_wrap, Nat.mod_eq_of_lt hn]
  · rintro ⟨m, -, rfl⟩
    refine ⟨(opc m).isLt, ?_⟩
    rw [wrap_toNat, mnemonicWith_self opc_injective]
    rfl

/-- Nine of the 256 byte values are opcodes, so 247 are not. -/
theorem length_unknownOpcodes : ((List.range 256).filter fun n => (mnemonicWith opc (wrap n)).isNone).length = 247 := by
  have hsplit := List.length_eq_length_filter_add (l := List.range 256) fun n => (mnemonicWith opc (wrap n)).isNone
  rw [knownOpcodes_perm.length_eq, List.length_range, List.length_map, show Mnemonic.all.length = 9 from rfl] at hsplit
  omega

/-- Settles O5: by the list of the nine opcode bytes, none of which has bits 7:6 = 0b11. -/
theorem illegalOpcodesRejected : Obligations.IllegalOpcodesRejected :=
  ⟨fun _ tl h => decode_unknown (mnemonicWith_opc_eq_none.mpr h) tl,
    fun _ tl h => decode_unknown (mnemonicWith_of_opCount h) tl, length_unknownOpcodes⟩

/-- The operand count is the opcode byte divided by 64. -/
theorem opCount_eq_div (ir : Byte) : opCount ir = ir.toNat / 64 := by
  rw [opCount, BitVec.toNat_ushiftRight, Nat.shiftRight_eq_div_pow]

/-- A bit of a byte as a digit of its value. -/
theorem getLsbD_toNat (b : Byte) (k : Nat) : (b.getLsbD k).toNat = b.toNat / 2 ^ k % 2 :=
  Nat.toNat_testBit b.toNat k

/-- Settles O6: both fields as digits of the byte's value. -/
theorem opcodeByteFields : Obligations.OpcodeByteFields := by
  intro ir
  refine ⟨opCount_eq_div ir, ?bits, rfl, ?bit4⟩
  case bits =>
    rw [opCount_eq_div, getLsbD_toNat, getLsbD_toNat]
    omega
  case bit4 =>
    have h4 : (ir.getLsbD 4).toNat = ir.toNat / 16 % 2 := getLsbD_toNat ir 4
    rw [← h4, setsPc, Bool.toNat_eq_one]

/-- Settles O7: all three lengths are `opCount` of the first byte, by the lemmas on decoding, fetching and advancing. -/
theorem lengthFromFirstByte : Obligations.LengthFromFirstByte := by
  refine ⟨fun ir tl rest i h => ?decoded, fun s => ?fetched, fun s ir h => ?advanced⟩
  case decoded =>
    obtain ⟨rfl, rfl⟩ := List.cons.inj (decode_ok h)
    have hn : (opc i.mnemonic).toNat / 64 = i.operandBytes.length := by
      rw [← opCount_eq_div, opCount_opc, i.operandBytes_length]
    rw [hn]
    exact ⟨Nat.add_comm .., by simp, by simp⟩
  case fetched => rw [s.fetchBytes_length, opCount_eq_div]
  case advanced =>
    rw [s.autoAdvance_eq, h, opCount_eq_div]
    simp [Nat.add_assoc, Nat.add_comm 1]

/-- Settles O2: by the definition of the encoder. -/
theorem encodingLayout : Obligations.EncodingLayout :=
  fun _ _ => ⟨rfl, rfl, rfl, rfl, rfl, rfl, rfl, rfl, rfl⟩

/-- Settles O1: each list of bytes is an encoding and what follows it, so `decodeInvertsEncode` applies. -/
theorem writtenOutBytesDecode : Obligations.WrittenOutBytesDecode :=
  ⟨decodeInvertsEncode (.ldi 0 8) [], decodeInvertsEncode (.prn 7) [0x01], decodeInvertsEncode (.mul 0 1) [],
    decodeInvertsEncode (.add 3 6) [], decodeInvertsEncode (.cmp 0 8) [], decodeInvertsEncode (.jmp 4) [],
    decodeInvertsEncode (.jeq 3) [], decodeInvertsEncode (.jne 3) [], decodeInvertsEncode .hlt []⟩

end Sys2Proof
end

section
/-! The cycle (spec 40): when a step exists, what it fetches and what it executes. -/

namespace Sys2Proof.Machine

/-- Settles O8: `cycleWith_of_bytesAtPc`; the two fields of an opcode byte are fixed by K1 and K2. -/
theorem anyAdmissibleOpcodes : Obligations.AnyAdmissibleOpcodes := by
  refine fun o ho => ⟨fun s i hr hb => cycleWith_of_bytesAtPc ho hr hb, fun s m => ?_⟩
  rw [s.autoAdvance_eq, s.autoAdvance_eq, ho.k1, ho.k2, opCount_opc, setsPc_opc]

/-- A HALTED machine has no step (40 R70). -/
theorem step_of_halted {s : State} (h : s.run = .halted) : step s = .fault .noStepHalted := by
  simp only [step, cycleWith, h]

/-- A FAULTED machine has no step (40 R70). -/
theorem step_of_faulted {s : State} (h : s.run = .faulted) : step s = .fault .noStepFaulted := by
  simp only [step, cycleWith, h]

/-- Every instruction has a next state. -/
theorem exec_next (i : Instr) (s : State) : ∃ t, exec i s = .next t := by
  cases i <;> exact ⟨_, rfl⟩

/-- A RUNNING machine has a step: on a known opcode the instruction's, else DecodeError. -/
theorem step_next_of_running {s : State} (h : s.run = .running) : ∃ t, step s = .next t := by
  cases hm : mnemonicWith opc (s.readByte s.pc) with
  | none => exact ⟨_, step_of_unknown h hm⟩
  | some m =>
    obtain ⟨i, -, hd⟩ := State.fetchBytes_decode hm
    obtain ⟨t, ht⟩ := exec_next i s
    exact ⟨t, (step_of_decode h hd).trans ht⟩

/-- Settles O19: by the three run states. -/
theorem stepEnabledIffRunning : Obligations.StepEnabledIffRunning := fun _ =>
  ⟨⟨fun ⟨_, ht⟩ => (step_next_cases ht).1, step_next_of_running⟩, step_of_halted, step_of_faulted⟩

/-- Settles O20: bytes that decode begin with the instruction's encoding, which then stands at the program counter. -/
theorem stepRunsDecodedInstruction : Obligations.StepRunsDecodedInstruction := fun _ _ _ _ hr hb hd =>
  step_of_bytesAtPc hr (State.BytesAtPc.left (decode_ok hd ▸ hb))

/-- Settles O21: `step_of_unknown` for the bytes that are not listed. -/
theorem unknownOpcodeTakesDecodeError : Obligations.UnknownOpcodeTakesDecodeError := fun _ hr h =>
  step_of_unknown hr (mnemonicWith_opc_eq_none.mpr h)

/-- Reducing an address modulo 256 once more changes nothing. -/
theorem wrap_mod (n : Nat) : wrap (n % 256) = wrap n :=
  BitVec.eq_of_toNat_eq (by simp)

/-- Settles O22: `State.fetchBytes_eq` at each operand count. -/
theorem operandFetchWraps : Obligations.OperandFetchWraps := by
  intro s
  have hwrap (n : Nat) : BitVec.ofNat 8 (n % 256) = wrap n := wrap_mod n
  refine ⟨fun h => ?_, fun h => ?_, fun h => ?_⟩ <;> rw [s.fetchBytes_eq, h]
  · rfl
  · rw [hwrap]
    rfl
  · rw [hwrap, hwrap]
    rfl

/-- An assembled program is the code before an instruction, its encoding and the code after it. -/
theorem assemble_append_cons (before later : List Instr) (i : Instr) :
    assemble (before ++ i :: later) = assemble before ++ (encode i ++ assemble later) := by
  simp [assemble]

/-- Bytes of a loaded image stand at the address that is the number of bytes before them. -/
theorem bytesAtPc_load {pre bs post : List Byte} (h : (pre ++ (bs ++ post)).length ≤ 256) :
    ((State.reset.load (pre ++ (bs ++ post))).setPc (wrap pre.length)).BytesAtPc bs := by
  intro k hk
  have hlen : pre.length + k < 256 := by
    simp only [List.length_append] at h
    omega
  have haddr : (wrap ((wrap pre.length).toNat + k)).toNat = pre.length + k := by
    rw [wrap_add_wrap, toNat_wrap, Nat.mod_eq_of_lt hlen]
  calc bs[k]
      = (pre ++ (bs ++ post)).getD (pre.length + k) 0x00 := by
        rw [List.getD_append_right _ _ _ _ (Nat.le_add_right ..), Nat.add_sub_cancel_left, List.getD_append _ _ _ _ hk,
          List.getD_eq_getElem _ _ hk]
    _ = (State.reset.load (pre ++ (bs ++ post))).readByte (wrap ((wrap pre.length).toNat + k)) := by
        rw [State.readByte_load reset_ram_wf h, haddr]
        rfl

/-- Settles O18: the instruction's encoding stands at its address (`bytesAtPc_load`), so a step there executes it. -/
theorem assembledInstructionRuns : Obligations.AssembledInstructionRuns := by
  intro before later i h
  rw [assemble_append_cons] at h ⊢
  exact ⟨_, launch_of_le h, bytesAtPc_load h, step_of_bytesAtPc (State.load_run _ _) (bytesAtPc_load h)⟩

/-- Settles O56: the step is that of JMP, which leaves the state as it is; by induction on the number of steps. -/
theorem jumpToSelfNeverEnds : Obligations.JumpToSelfNeverEnds := by
  intro s a ha hr hb hpc n
  have hself : step s = .next s := by
    rw [step_of_bytesAtPc (i := .jmp a) hr hb]
    refine congrArg _ ((s.withReg_of_lt ha _).trans ?_)
    rw [hpc]
    rfl
  induction n with
  | zero => exact core_run_zero s
  | succ n ih => rw [core_run_succ hself, ih]

end Sys2Proof.Machine
end

section
/-! The state after an instruction has completed, read as the tables of spec 40 section 3 and 41 to 44 give it: the
program counter, and the one register it may write. -/

namespace Sys2Proof

/-- The operand byte that names the register an instruction writes (spec 50 R138). -/
def Instr.destination : Instr → Option Byte
  | .ldi a _ | .mul a _ | .add a _ => some a
  | .prn _ | .cmp _ _ | .jmp _ | .jeq _ | .jne _ | .hlt => none

/-- The register written is a register operand. -/
theorem Instr.destination_mem {i : Instr} {a : Byte} (h : i.destination = some a) : a ∈ i.regOperands := by
  cases i <;> cases h <;> exact List.mem_cons_self

end Sys2Proof

namespace Sys2Proof.Machine

/-- The state after an instruction has completed is its effect with the auto-advance its row of the table gives. -/
theorem completed_eq (i : Instr) (s : State) : completed i s = (effect i s).setPc
    (if i.mnemonic.setsPcColumn then (effect i s).pc
      else wrap ((effect i s).pc.toNat + i.mnemonic.operandCount + 1)) := by
  rw [completed, State.autoAdvance_eq, setsPc_opc, opCount_opc]

/-- A conditional jump's target with the engine's 2 added. -/
theorem State.toNat_jumpIf_add (s : State) (taken : Bool) (r : Fin 8) : (wrap ((s.jumpIf taken r).pc.toNat + 1 + 1)).toNat =
    (if taken then (s.getReg r).toNat + 2 else s.pc.toNat + 4) % 256 := by
  cases taken
  · exact (congrArg _ (wrap_add_wrap (s.pc.toNat + 2) 2)).trans (toNat_wrap _)
  · exact toNat_wrap _

/-- The table of 40 section 3. -/
theorem completed_pc (i : Instr) (s : State) : (completed i s).pc.toNat =
    match i with
    | .ldi _ _ | .mul _ _ | .add _ _ | .cmp _ _ => (s.pc.toNat + 3) % 256
    | .prn _ => (s.pc.toNat + 2) % 256
    | .jmp a => (s.getReg (operandReg a)).toNat
    | .jeq a => (if flagE s.fl then (s.getReg (operandReg a)).toNat + 2 else s.pc.toNat + 4) % 256
    | .jne a => (if flagE s.fl then s.pc.toNat + 4 else (s.getReg (operandReg a)).toNat + 2) % 256
    | .hlt => (s.pc.toNat + 1) % 256 := by
  rw [completed_eq]
  cases i with
  | ldi | mul | add | cmp => exact toNat_wrap (s.pc.toNat + 3)
  | prn => exact toNat_wrap (s.pc.toNat + 2)
  | jmp => rfl
  | jeq a => exact s.toNat_jumpIf_add (flagE s.fl) (operandReg a)
  | jne a =>
    refine (s.toNat_jumpIf_add (!flagE s.fl) (operandReg a)).trans ?_
    cases flagE s.fl <;> rfl
  | hlt => exact toNat_wrap (s.pc.toNat + 1)

/-- A register that is not the one written holds what it held. -/
theorem completed_getReg {i : Instr} (s : State) {r : Fin 8} (h : ∀ a, i.destination = some a → r ≠ operandReg a) :
    (completed i s).getReg r = s.getReg r := by
  rw [completed, State.getReg_congr (State.autoAdvance_x ..)]
  cases i with
  | ldi a | mul a b | add a b => exact (s.getReg_setReg _ _ _).trans (if_neg (h a rfl))
  | prn | cmp | jmp | jeq | jne | hlt => rfl

/-- No instruction stores to RAM. -/
theorem exec_sameMemory {i : Instr} {s t : State} (h : exec i s = .next t) : SameMemory s t := by
  refine State.readByte_congr ?_
  rcases exec_next_cases h with ⟨-, rfl⟩ | ⟨-, b, -, -, rfl⟩
  · exact completed_ram i s
  · rfl

/-- No instruction writes a register but the one operand A of LDI, MUL or ADD names. -/
theorem exec_getReg {i : Instr} {s t : State} (h : exec i s = .next t) {r : Fin 8}
    (hr : ∀ a, i.destination = some a → r.val ≠ a.toNat) : t.getReg r = s.getReg r := by
  rcases exec_next_cases h with ⟨hw, rfl⟩ | ⟨-, b, -, -, rfl⟩
  · refine completed_getReg s fun a ha hra => hr a ha ?_
    rw [hra, operandReg_of_lt (Instr.wellFormed_iff.mp hw a (Instr.destination_mem ha))]
  · rfl

/-- No instruction but PRN writes to the output. -/
theorem exec_out_of_ne_prn {i : Instr} {s t : State} (h : exec i s = .next t) (hi : ∀ a, i ≠ .prn a) :
    t.out = s.out := by
  rcases exec_next_cases h with ⟨-, rfl⟩ | ⟨-, b, -, -, rfl⟩
  · cases i with
    | prn a => exact absurd rfl (hi a)
    | ldi | mul | add | cmp | jmp | jeq | jne | hlt => exact completed_out _ s
  · rfl

/-- With legal register operands no instruction but HLT changes the run state, and none the fault record. -/
theorem exec_run_fault {i : Instr} {s t : State} (h : exec i s = .next t) (hi : i ≠ .hlt) (hw : i.wellFormed = true) :
    t.run = s.run ∧ t.fault = s.fault := by
  rw [exec_of_wellFormed hw] at h
  cases h
  exact ⟨(completed_run i s).trans (if_neg hi), completed_fault i s⟩

/-- With an illegal register operand only the run state and the fault record change. -/
theorem exec_of_not_wellFormed {i : Instr} {s t : State} (h : exec i s = .next t) (hw : i.wellFormed = false) :
    ∃ b, t = s.raiseFault .regIndex s.pc b := by
  rcases exec_next_cases h with ⟨hw', -⟩ | ⟨-, b, -, -, rfl⟩
  · exact absurd hw' (by simp [hw])
  · exact ⟨b, rfl⟩

end Sys2Proof.Machine
end

section
/-! Exceptions and frames (spec 60; the frames of 41 to 44). -/

namespace Sys2Proof.Machine

/-- Settles O34: `exec_of_find`. -/
theorem badRegisterTakesRegIndexFault : Obligations.BadRegisterTakesRegIndexFault := fun _ s _ h => exec_of_find h s

/-- Settles O35: the instruction completes, and its run state and fault record are known. -/
theorem legalOperandsNeverFault : Obligations.LegalOperandsNeverFault := fun i s hw =>
  ⟨_, exec_of_wellFormed hw s, completed_fault i s, completed_run i s⟩

/-- Settles O36: of the three things a step can do, the two exceptions end FAULTED. -/
theorem faultsArePrecise : Obligations.FaultsArePrecise := by
  intro s t h hf
  obtain ⟨hr, ⟨i, -, -, rfl⟩ | ⟨i, hb, b, hm, h7, rfl⟩ | ⟨hu, rfl⟩⟩ := step_cases h
  · exact absurd hf (completed_run_ne_faulted hr)
  · refine ⟨.regIndex, b, rfl, .inr ⟨rfl, h7, hb.mem_fetchBytes_tail hm, ?_⟩⟩
    rw [hb.readByte_pc, mnemonicWith_self opc_injective]
    nofun
  · exact ⟨.decodeError, _, rfl, .inl ⟨rfl, rfl, hu⟩⟩

/-- Settles O38: by the frame lemmas of `exec`, for each of the three instructions. -/
theorem registerWriteFrame : Obligations.RegisterWriteFrame := by
  intro s t a b i hi h
  have hdest : i.destination = some a := by rcases hi with rfl | rfl | rfl <;> rfl
  have hne : (∀ a b, i ≠ .cmp a b) ∧ (∀ a, i ≠ .prn a) ∧ i ≠ .hlt := by
    rcases hi with rfl | rfl | rfl <;> exact ⟨nofun, nofun, nofun⟩
  obtain ⟨hcmp, hprn, hhlt⟩ := hne
  refine ⟨fun r hr => exec_getReg h fun c hc => ?_, exec_fl_of_ne_cmp hcmp h, exec_out_of_ne_prn h hprn,
    exec_sameMemory h, exec_run_fault h hhlt⟩
  obtain rfl : a = c := Option.some.inj (hdest.symm.trans hc)
  exact hr

/-- Settles O41: by the frame lemmas of `exec`, for each of the three jumps. -/
theorem jumpFrame : Obligations.JumpFrame := by
  intro s t a i hi h
  have hdest : i.destination = none := by rcases hi with rfl | rfl | rfl <;> rfl
  have hne : (∀ a b, i ≠ .cmp a b) ∧ (∀ a, i ≠ .prn a) ∧ i ≠ .hlt := by
    rcases hi with rfl | rfl | rfl <;> exact ⟨nofun, nofun, nofun⟩
  obtain ⟨hcmp, hprn, hhlt⟩ := hne
  refine ⟨fun r => exec_getReg h (by simp [hdest]), exec_fl_of_ne_cmp hcmp h, exec_out_of_ne_prn h hprn,
    exec_sameMemory h, exec_run_fault h hhlt, fun hw => ?_⟩
  obtain ⟨b, rfl⟩ := exec_of_not_wellFormed h hw
  rfl

/-- Settles O39: by the frame lemmas of `exec`. -/
theorem compareFrame : Obligations.CompareFrame := by
  intro s t a b h
  refine ⟨fun r => exec_getReg h nofun, exec_out_of_ne_prn h nofun, exec_sameMemory h, exec_run_fault h nofun,
    fun hw => ?_⟩
  obtain ⟨b, rfl⟩ := exec_of_not_wellFormed h hw
  rfl

/-- Settles O40: by the frame lemmas of `exec`; the value printed is its register's. -/
theorem printFrame : Obligations.PrintFrame := by
  intro s t a h
  refine ⟨fun r => exec_getReg h nofun, exec_fl_of_ne_cmp (i := .prn a) nofun h, exec_sameMemory h, fun hw => ?legal,
    fun hw => ?illegal⟩
  case legal =>
    obtain ⟨hrun, hfault⟩ := exec_run_fault h nofun hw
    rw [exec_of_wellFormed hw] at h
    cases h
    exact ⟨hrun, hfault, _, completed_out (.prn a) s⟩
  case illegal =>
    obtain ⟨b, rfl⟩ := exec_of_not_wellFormed h hw
    rfl

/-- Settles O42: by the frame lemmas of `exec`. -/
theorem haltFrame : Obligations.HaltFrame := by
  intro s t h
  refine ⟨fun r => exec_getReg h nofun, exec_fl_of_ne_cmp (i := .hlt) nofun h, exec_out_of_ne_prn h nofun, exec_sameMemory h, ?_⟩
  cases h
  rfl

end Sys2Proof.Machine
end

section
/-! Each instruction with legal register operands, clause by clause (spec 41 to 44). -/

namespace Sys2Proof.Machine

/-- What LDI, MUL and ADD leave unchanged when they complete: `registerWriteFrame` and the program counter's 3. -/
theorem registerWrite_completes {i : Instr} {s : State} {a b : Byte} (hi : i = .ldi a b ∨ i = .mul a b ∨ i = .add a b)
    (hw : i.wellFormed = true) :
    SameRegsBut a.toNat s (completed i s) ∧ (completed i s).pc.toNat = (s.pc.toNat + 3) % 256 ∧
      (completed i s).fl = s.fl ∧ SameMemory s (completed i s) ∧ (completed i s).run = s.run ∧
      (completed i s).fault = s.fault ∧ (completed i s).out = s.out := by
  obtain ⟨hregs, hfl, hout, hmem, hrf⟩ := registerWriteFrame s _ a b i hi (exec_of_wellFormed hw s)
  obtain ⟨hrun, hfault⟩ := hrf hw
  refine ⟨hregs, ?_, hfl, hmem, hrun, hfault, hout⟩
  rcases hi with rfl | rfl | rfl <;> exact completed_pc _ s

/-- What a jump leaves unchanged when it completes, by `jumpFrame`. -/
theorem jump_completes {i : Instr} {s : State} {a : Byte} (hi : i = .jmp a ∨ i = .jeq a ∨ i = .jne a)
    (hw : i.wellFormed = true) :
    SameRegs s (completed i s) ∧ (completed i s).fl = s.fl ∧ SameMemory s (completed i s) ∧
      (completed i s).run = s.run ∧ (completed i s).fault = s.fault ∧ (completed i s).out = s.out := by
  obtain ⟨hregs, hfl, hout, hmem, hrf, -⟩ := jumpFrame s _ a i hi (exec_of_wellFormed hw s)
  obtain ⟨hrun, hfault⟩ := hrf hw
  exact ⟨hregs, hfl, hmem, hrun, hfault, hout⟩

/-- The register an effect writes reads as the value written. -/
theorem completed_getReg_written {i : Instr} {s : State} {r : Fin 8} {v : Byte} (h : effect i s = s.setReg r v) :
    (completed i s).getReg r = v := by
  rw [completed_eq, h]
  exact (s.getReg_setReg r r v).trans (if_pos rfl)

/-- Settles O25: the register written, and `registerWrite_completes` for the rest. -/
theorem ldiCompletes : Obligations.LdiCompletes := by
  intro s a imm ha
  have hw : Instr.wellFormed (.ldi a imm) = true := Instr.wellFormed_of_lt rfl ha
  rw [← operandReg_of_lt ha]
  exact ⟨_, exec_of_wellFormed hw s, completed_getReg_written rfl, registerWrite_completes (.inl rfl) hw⟩

/-- Settles O27: as LDI, with the low byte of the product. -/
theorem mulCompletes : Obligations.MulCompletes := by
  intro s a b ha hb
  have hw : Instr.wellFormed (.mul a b) = true := Instr.wellFormed_of_lt_lt rfl ha hb
  rw [← operandReg_of_lt ha, ← operandReg_of_lt hb]
  refine ⟨_, exec_of_wellFormed hw s, ?_, registerWrite_completes (.inr (.inl rfl)) hw⟩
  rw [completed_getReg_written rfl, aluMul, toNat_wrap]

/-- Settles O28: as LDI, with the low byte of the sum. -/
theorem addCompletes : Obligations.AddCompletes := by
  intro s a b ha hb
  have hw : Instr.wellFormed (.add a b) = true := Instr.wellFormed_of_lt_lt rfl ha hb
  rw [← operandReg_of_lt ha, ← operandReg_of_lt hb]
  refine ⟨_, exec_of_wellFormed hw s, ?_, registerWrite_completes (.inr (.inr rfl)) hw⟩
  rw [completed_getReg_written rfl, aluAdd, toNat_wrap]

/-- Settles O26: `printFrame`, with the value printed. -/
theorem prnCompletes : Obligations.PrnCompletes := by
  intro s a ha
  have hw : Instr.wellFormed (.prn a) = true := Instr.wellFormed_of_lt rfl ha
  have he := exec_of_wellFormed hw s
  obtain ⟨hregs, hfl, hmem, hlegal, -⟩ := printFrame s _ a he
  obtain ⟨hrun, hfault, -⟩ := hlegal hw
  rw [← operandReg_of_lt ha]
  exact ⟨_, he, completed_out (.prn a) s, hregs, completed_pc (.prn a) s, hfl, hmem, hrun, hfault⟩

/-- Settles O29: `compareFrame`, with the three orders of `compareFlags_cases`. -/
theorem cmpCompletes : Obligations.CmpCompletes := by
  intro s a b ha hb
  have hw : Instr.wellFormed (.cmp a b) = true := Instr.wellFormed_of_lt_lt rfl ha hb
  have he := exec_of_wellFormed hw s
  obtain ⟨hregs, hout, hmem, hlegal, -⟩ := compareFrame s _ a b he
  obtain ⟨hrun, hfault⟩ := hlegal hw
  have hfl := completed_fl (.cmp a b) s
  rw [← operandReg_of_lt ha, ← operandReg_of_lt hb]
  refine ⟨_, he, ?eq, ?lt, ?gt, hregs, completed_pc (.cmp a b) s, hmem, hrun, hfault, hout⟩
  all_goals
    intro horder
    rcases compareFlags_cases (s.getReg (operandReg a)) (s.getReg (operandReg b)) with ⟨h, e⟩ | ⟨h, e⟩ | ⟨h, e⟩
  case eq.inl | lt.inr.inl | gt.inr.inr => exact hfl.trans e
  all_goals omega

/-- Settles O30: the row of JMP in `completed_pc`, and `jump_completes` for the rest. -/
theorem jmpCompletes : Obligations.JmpCompletes := by
  intro s a ha
  have hw : Instr.wellFormed (.jmp a) = true := Instr.wellFormed_of_lt rfl ha
  rw [← operandReg_of_lt ha]
  exact ⟨_, exec_of_wellFormed hw s, BitVec.eq_of_toNat_eq (completed_pc (.jmp a) s), jump_completes (.inl rfl) hw⟩

/-- Settles O31: the two rows of JEQ in `completed_pc`. -/
theorem jeqCompletes : Obligations.JeqCompletes := by
  intro s a ha
  have hw : Instr.wellFormed (.jeq a) = true := Instr.wellFormed_of_lt rfl ha
  rw [← operandReg_of_lt ha]
  refine ⟨_, exec_of_wellFormed hw s, fun hE => ?taken, fun hE => ?past, jump_completes (.inr (.inl rfl)) hw⟩
  case taken => exact (completed_pc (.jeq a) s).trans (congrArg (· % 256) (if_pos hE))
  case past => exact (completed_pc (.jeq a) s).trans (congrArg (· % 256) (if_neg (Bool.eq_false_iff.mp hE)))

/-- Settles O32: the two rows of JNE in `completed_pc`. -/
theorem jneCompletes : Obligations.JneCompletes := by
  intro s a ha
  have hw : Instr.wellFormed (.jne a) = true := Instr.wellFormed_of_lt rfl ha
  rw [← operandReg_of_lt ha]
  refine ⟨_, exec_of_wellFormed hw s, fun hE => ?taken, fun hE => ?past, jump_completes (.inr (.inr rfl)) hw⟩
  case taken => exact (completed_pc (.jne a) s).trans (congrArg (· % 256) (if_neg (Bool.eq_false_iff.mp hE)))
  case past => exact (completed_pc (.jne a) s).trans (congrArg (· % 256) (if_pos hE))

/-- Settles O33: `haltFrame`, with the run state and the program counter. -/
theorem hltCompletes : Obligations.HltCompletes := by
  intro s
  have he : exec .hlt s = .next (completed .hlt s) := rfl
  obtain ⟨hregs, hfl, hout, hmem, hfault⟩ := haltFrame s _ he
  exact ⟨_, he, rfl, completed_pc .hlt s, hregs, hfl, hmem, hfault, hout⟩

end Sys2Proof.Machine
end

section
/-! The ALU and COMPARE (spec 42 R101, R104; 10 R15). -/

namespace Sys2Proof.Machine

/-- Settles O44: in each of the three orders the byte is known, and its bits are evaluated. -/
theorem compareBitsMatchOrder : Obligations.CompareBitsMatchOrder := by
  intro u v
  rcases compareFlags_cases u v with ⟨h, e⟩ | ⟨h, e⟩ | ⟨h, e⟩ <;> rw [e] <;> simp [flagE, flagG, flagL] <;> omega

/-- ADD is the addition of bit vectors. -/
theorem aluAdd_eq (u v : Byte) : aluAdd u v = u + v :=
  BitVec.eq_of_toNat_eq (by rw [aluAdd, toNat_wrap, BitVec.toNat_add])

/-- MULTIPLY is the multiplication of bit vectors. -/
theorem aluMul_eq (u v : Byte) : aluMul u v = u * v :=
  BitVec.eq_of_toNat_eq (by rw [aluMul, toNat_wrap, BitVec.toNat_mul])

/-- Settles O45: the library's unsigned and signed readings of bit-vector sums and products. -/
theorem aluWrapsModulo256 : Obligations.AluWrapsModulo256 := by
  intro u v
  rw [aluAdd_eq, aluMul_eq]
  exact ⟨BitVec.toNat_add u v, BitVec.toNat_mul u v, BitVec.toInt_add u v, BitVec.toInt_mul u v⟩

/-- Settles O46: CMP of equal values sets E (`cmpCompletes`), with which JEQ is taken (`jeqCompletes`). -/
theorem compareSelfThenJeqIsTaken : Obligations.CompareSelfThenJeqIsTaken := by
  intro s a r ha hr
  obtain ⟨t, ht, heq, -, -, hregs, -⟩ := cmpCompletes s a a ha ha
  obtain ⟨u, hu, htaken, -⟩ := jeqCompletes t r hr
  have hE : t.fl.getLsbD 0 = true := by rw [heq rfl]; rfl
  exact ⟨t, u, ht, hu, by rw [htaken hE, hregs]⟩

end Sys2Proof.Machine
end

section
/-! A whole step by the opcode byte at the program counter: where the program counter goes, which register, what output
and which run state it leaves (spec 40 section 3; 10 R11, R20, R22). -/

namespace Sys2Proof.Machine

/-- Operand A of an encoding that stands at the program counter is the byte after the opcode. -/
theorem State.BytesAtPc.readByte_operandA {s : State} {i : Instr} (h : s.BytesAtPc (encode i)) {a : Byte}
    (ha : i.operandBytes.head? = some a) : s.readByte (wrap (s.pc.toNat + 1)) = a := by
  obtain ⟨tl, htl⟩ := List.head?_eq_some_iff.mp ha
  have hlen : 1 < (encode i).length := by simp [encode, encodeWith, htl]
  rw [← h 1 hlen]
  simp [encode, encodeWith, htl]

/-- The byte of HLT belongs to HLT alone. -/
theorem opc_eq_hlt {i : Instr} : opc i.mnemonic = 0x01 ↔ i = .hlt := by
  cases i <;> simp [Instr.mnemonic, opc]

/-- The byte of PRN belongs to PRN alone. -/
theorem opc_eq_prn {i : Instr} : opc i.mnemonic = 0x47 ↔ ∃ a, i = .prn a := by
  cases i <;> simp [Instr.mnemonic, opc]

/-- Settles O23: the state before the auto-advance is `effect i s`. -/
theorem autoAdvanceAfterEffect : Obligations.AutoAdvanceAfterEffect := by
  refine ⟨fun s ir h => ?clear, fun s ir h => ?set, fun i s hw => ⟨effect i s, exec_of_wellFormed hw s, ?other, ?jumps⟩,
    fun i s t hw h => ?fault⟩
  case clear =>
    rw [s.autoAdvance_eq, h]
    rfl
  case set =>
    rw [s.autoAdvance_eq, h]
    rfl
  case other =>
    intro hi
    cases i with
    | ldi | prn | mul | add | cmp | hlt => rfl
    | jmp a => exact absurd rfl (hi a).1
    | jeq a => exact absurd rfl (hi a).2.1
    | jne a => exact absurd rfl (hi a).2.2
  case jumps =>
    intro a ha
    rw [← operandReg_of_lt ha]
    refine ⟨?_, ?_, ?_⟩ <;> rintro rfl
    · rfl
    · rfl
    · rw [effect, State.jumpIf, State.setPc_pc, flagE]
      cases s.fl.getLsbD 0 <;> rfl
  case fault =>
    obtain ⟨b, rfl⟩ := exec_of_not_wellFormed h hw
    rfl

/-- Settles O24: a step that did not fault completed an instruction, whose row of `completed_pc` applies. -/
theorem pcAfterStep : Obligations.PcAfterStep := by
  intro s t h
  obtain ⟨hr, ⟨i, hb, -, rfl⟩ | ⟨i, -, b, -, -, rfl⟩ | ⟨-, rfl⟩⟩ := step_cases h
  · refine ⟨fun hf => absurd hf (completed_run_ne_faulted hr), fun _ => ?_⟩
    rw [hb.readByte_pc]
    cases i with
    | ldi | prn | mul | add | cmp => simp [Instr.mnemonic, opc, completed_pc]
    | hlt => simp [Instr.mnemonic, opc, completed_pc, completed_run]
    | jmp a =>
      obtain rfl := hb.readByte_operandA rfl
      simp [Instr.mnemonic, opc, ← operandReg_of_lt, completed_pc, ← BitVec.toNat_inj]
    | jeq a | jne a =>
      obtain rfl := hb.readByte_operandA rfl
      simp [Instr.mnemonic, opc, ← operandReg_of_lt, completed_pc, flagE]
  · exact ⟨fun _ => rfl, fun hf => absurd rfl hf⟩
  · exact ⟨fun _ => rfl, fun hf => absurd rfl hf⟩

/-- Settles O49: a register that is not the destination keeps its value (`completed_getReg`). -/
theorem registersWrittenBy : Obligations.RegistersWrittenBy := by
  intro s t r h hne
  obtain ⟨-, ⟨i, hb, hw, rfl⟩ | ⟨i, -, b, -, -, rfl⟩ | ⟨-, rfl⟩⟩ := step_cases h
  · have hdest : ∃ a, i.destination = some a ∧ r = operandReg a := by
      by_contra hno
      exact hne (completed_getReg s fun a ha hra => hno ⟨a, ha, hra⟩)
    obtain ⟨a, ha, rfl⟩ := hdest
    have hlt := Instr.wellFormed_iff.mp hw a (Instr.destination_mem ha)
    rw [hb.readByte_pc, operandReg_of_lt hlt]
    cases i with
    | ldi | mul | add =>
      cases ha
      exact ⟨by simp [Instr.mnemonic, opc], congrArg _ (hb.readByte_operandA rfl)⟩
    | prn | cmp | jmp | jeq | jne | hlt => cases ha
  · exact absurd rfl hne
  · exact absurd rfl hne

/-- Settles O50: a completed instruction leaves HALTED only if it is HLT; an exception leaves FAULTED, and HLT, which has
no operand, raises none. -/
theorem onlyHltHalts : Obligations.OnlyHltHalts := by
  intro s t h
  obtain ⟨hr, ⟨i, hb, -, rfl⟩ | ⟨i, hb, b, hm, -, rfl⟩ | ⟨hu, rfl⟩⟩ := step_cases h
  · rw [completed_run_halted hr, hb.readByte_pc, opc_eq_hlt]
  · rw [hb.readByte_pc, opc_eq_hlt]
    refine ⟨nofun, ?_⟩
    rintro rfl
    cases hm
  · exact ⟨nofun, fun hhlt => absurd hhlt.symm (mnemonicWith_none.mp hu .hlt)⟩

/-- Settles O51: only a completed PRN appends; with an illegal operand PRN does not complete. -/
theorem outputByPrnAlone : Obligations.OutputByPrnAlone := by
  intro s t h
  obtain ⟨-, ⟨i, hb, hw, rfl⟩ | ⟨i, hb, b, hm, h7, rfl⟩ | ⟨hu, rfl⟩⟩ := step_cases h
  · rw [hb.readByte_pc]
    refine ⟨fun hlt hprn => ?_, fun hno => exec_out_of_ne_prn (exec_of_wellFormed hw s) ?_⟩
    · obtain ⟨a, rfl⟩ := opc_eq_prn.mp hprn
      obtain rfl := hb.readByte_operandA rfl
      rw [← operandReg_of_lt hlt]
      exact completed_out (.prn _) s
    · rintro a rfl
      have ha := Instr.wellFormed_iff.mp hw a List.mem_cons_self
      rw [hb.readByte_operandA rfl] at hno
      rcases hno with hno | hno
      · exact hno rfl
      · omega
  · refine ⟨fun hlt hprn => ?_, fun _ => rfl⟩
    obtain ⟨a, rfl⟩ := opc_eq_prn.mp (hb.readByte_pc.symm.trans hprn)
    obtain rfl := List.mem_singleton.mp hm
    rw [hb.readByte_operandA rfl] at hlt
    omega
  · exact ⟨fun _ hprn => absurd hprn.symm (mnemonicWith_none.mp hu .prn), fun _ => rfl⟩

end Sys2Proof.Machine
end

section
/-! Transformations of the state that instructions cannot see (spec 10 R11, R12, R22; 20 R34): renaming registers,
changing a register that is not named, changing the output already emitted, changing RAM. One commuting lemma for all. -/

namespace Sys2Proof

/-- An instruction with its register operand bytes renamed. -/
def Instr.rename (g : Byte → Byte) : Instr → Instr
  | .ldi a imm => .ldi (g a) imm
  | .prn a => .prn (g a)
  | .mul a b => .mul (g a) (g b)
  | .add a b => .add (g a) (g b)
  | .cmp a b => .cmp (g a) (g b)
  | .jmp a => .jmp (g a)
  | .jeq a => .jeq (g a)
  | .jne a => .jne (g a)
  | .hlt => .hlt

@[simp] theorem Instr.rename_id (i : Instr) : i.rename id = i := by cases i <;> rfl

@[simp] theorem Instr.rename_mnemonic (g : Byte → Byte) (i : Instr) : (i.rename g).mnemonic = i.mnemonic := by
  cases i <;> rfl

@[simp] theorem Instr.rename_regOperands (g : Byte → Byte) (i : Instr) :
    (i.rename g).regOperands = i.regOperands.map g := by
  cases i <;> rfl

end Sys2Proof

namespace Sys2Proof.Machine

/-- `f` on states and `g` on the register operand bytes `bs` commute with every operation an instruction is made of. -/
structure Symmetry (f : State → State) (g : Byte → Byte) (bs : List Byte) : Prop where
  pc : ∀ s, (f s).pc = s.pc
  fl : ∀ s, (f s).fl = s.fl
  setPc : ∀ s v, (f s).setPc v = f (s.setPc v)
  setFl : ∀ s v, (f s).setFl v = f (s.setFl v)
  setRun : ∀ s q, (f s).setRun q = f (s.setRun q)
  emit : ∀ s v, (f s).emit v = f (s.emit v)
  raiseFault : ∀ s c a v, (f s).raiseFault c a v = f (s.raiseFault c a v)
  legal : ∀ b ∈ bs, b.toNat < 8 → (g b).toNat < 8
  illegal : ∀ b ∈ bs, 7 < b.toNat → g b = b
  getReg : ∀ b ∈ bs, b.toNat < 8 → ∀ s, (f s).getReg (operandReg (g b)) = s.getReg (operandReg b)
  setReg : ∀ b ∈ bs, b.toNat < 8 → ∀ s v, (f s).setReg (operandReg (g b)) v = f (s.setReg (operandReg b) v)

/-- A symmetry commutes with the auto-advance. -/
theorem Symmetry.autoAdvance {f : State → State} {g : Byte → Byte} {bs : List Byte} (F : Symmetry f g bs) (s : State)
    (ir : Byte) : (f s).autoAdvance ir = f (s.autoAdvance ir) := by
  rw [State.autoAdvance_eq, State.autoAdvance_eq, F.pc, F.setPc]

/-- A symmetry commutes with the effect of an instruction with legal operands. -/
theorem Symmetry.effect {f : State → State} {g : Byte → Byte} {i : Instr} (F : Symmetry f g i.regOperands)
    (hw : i.wellFormed = true) (s : State) : effect (i.rename g) (f s) = f (effect i s) := by
  have hb := Instr.wellFormed_iff.mp hw
  have hget b (hm : b ∈ i.regOperands) := F.getReg b hm (hb b hm) s
  have hset b (hm : b ∈ i.regOperands) := F.setReg b hm (hb b hm) s
  cases i with
  | ldi a imm => exact hset a List.mem_cons_self imm
  | prn a => rw [Instr.rename, Machine.effect, hget a List.mem_cons_self, F.emit]; rfl
  | mul a b | add a b =>
    rw [Instr.rename, Machine.effect, hget a List.mem_cons_self, hget b (by simp [Instr.regOperands]),
      hset a List.mem_cons_self]
    rfl
  | cmp a b =>
    rw [Instr.rename, Machine.effect, hget a List.mem_cons_self, hget b (by simp [Instr.regOperands]), F.setFl]
    rfl
  | jmp a => rw [Instr.rename, Machine.effect, hget a List.mem_cons_self, F.setPc]; rfl
  | jeq a | jne a =>
    rw [Instr.rename, Machine.effect, State.jumpIf, hget a List.mem_cons_self, F.setPc, F.pc, F.fl]
    rfl
  | hlt => exact F.setRun s .halted

/-- A symmetry leaves the first illegal register operand where it is. -/
theorem Symmetry.find_illegal {f : State → State} {g : Byte → Byte} {bs : List Byte} (F : Symmetry f g bs) :
    (bs.map g).find? (fun c => decide (7 < c.toNat)) = bs.find? (fun c => decide (7 < c.toNat)) := by
  have hsame (b) (hm : b ∈ bs) : decide (7 < (g b).toNat) = decide (7 < b.toNat) := by
    rcases Nat.lt_or_ge 7 b.toNat with h | h
    · rw [F.illegal b hm h]
    · have hlegal := F.legal b hm (Nat.lt_succ_of_le h)
      rw [decide_eq_false (by omega), decide_eq_false (by omega)]
  rw [List.find?_map, Function.comp_def, List.find?_congr hsame]
  cases hc : bs.find? (fun c => decide (7 < c.toNat)) with
  | none => rfl
  | some c =>
    have h7 : 7 < c.toNat := by simpa using List.find?_some hc
    rw [Option.map_some, F.illegal c (List.mem_of_find?_eq_some hc) h7]

/-- A symmetry commutes with every instruction, one with illegal operands included. -/
theorem Symmetry.exec {f : State → State} {g : Byte → Byte} {i : Instr} (F : Symmetry f g i.regOperands) (s : State) :
    exec (i.rename g) (f s) = mapNext f (exec i s) := by
  have hfind := F.find_illegal
  cases hc : i.regOperands.find? (fun c => decide (7 < c.toNat)) with
  | none =>
    rw [hc, ← Instr.rename_regOperands] at hfind
    have hw := Instr.find_eq_none.mp hc
    have hw' := Instr.find_eq_none.mp hfind
    rw [exec_of_wellFormed hw, exec_of_wellFormed hw', completed, F.effect hw, Instr.rename_mnemonic, F.autoAdvance]
    rfl
  | some b =>
    rw [hc, ← Instr.rename_regOperands] at hfind
    rw [exec_of_find hc, exec_of_find hfind, F.pc, F.raiseFault]
    rfl

/-- A transformation that instructions cannot see, and the fetch neither, commutes with a step. -/
theorem Symmetry.step {f : State → State} {s : State} (F : ∀ i : Instr, Symmetry f id i.regOperands)
    (hrun : (f s).run = s.run) (hfetch : (f s).fetchBytes = s.fetchBytes) : step (f s) = mapNext f (step s) := by
  cases hr : s.run with
  | halted => rw [step_of_halted hr, step_of_halted (hrun.trans hr)]; rfl
  | faulted => rw [step_of_faulted hr, step_of_faulted (hrun.trans hr)]; rfl
  | running =>
    have hbyte : (f s).readByte (f s).pc = s.readByte s.pc := by
      have hcons := ((f s).fetchBytes_eq.symm.trans hfetch).trans s.fetchBytes_eq
      exact (List.cons.inj hcons).1
    cases hm : mnemonicWith opc (s.readByte s.pc) with
    | none =>
      rw [step_of_unknown hr hm, step_of_unknown (hrun.trans hr) (hbyte.symm ▸ hm), hbyte, (F .hlt).pc,
        (F .hlt).raiseFault]
      rfl
    | some m =>
      obtain ⟨i, -, hd⟩ := State.fetchBytes_decode hm
      rw [step_of_decode hr hd, step_of_decode (hrun.trans hr) (hfetch.symm ▸ hd), ← (F i).exec, Instr.rename_id]

/-- The output already emitted can have anything before it. -/
theorem symmetry_out (l : List Byte) (bs : List Byte) :
    Symmetry (fun t => { t with out := l ++ t.out }) id bs where
  pc _ := rfl
  fl _ := rfl
  setPc _ _ := rfl
  setFl _ _ := rfl
  setRun _ _ := rfl
  emit s v := by simp [State.emit]
  raiseFault _ _ _ _ := rfl
  legal _ _ h := h
  illegal _ _ _ := rfl
  getReg _ _ _ _ := rfl
  setReg _ _ _ _ _ := rfl

/-- RAM can be anything. -/
theorem symmetry_ram (m : Memory) (bs : List Byte) : Symmetry (fun t => { t with ram := m }) id bs where
  pc _ := rfl
  fl _ := rfl
  setPc _ _ := rfl
  setFl _ _ := rfl
  setRun _ _ := rfl
  emit _ _ := rfl
  raiseFault _ _ _ _ := rfl
  legal _ _ h := h
  illegal _ _ _ := rfl
  getReg _ _ _ _ := rfl
  setReg _ _ _ _ _ := rfl

/-- Settles O52: `symmetry_out`; the fetch does not depend on the output. -/
theorem outputIsNeverRead : Obligations.OutputIsNeverRead := fun s l =>
  Symmetry.step (s := s) (fun i => symmetry_out l i.regOperands) rfl (State.fetchBytes_congr rfl rfl)

/-- Settles O53: `symmetry_ram`, for memories that the fetch cannot tell apart. -/
theorem ramReadByFetchOnly : Obligations.RamReadByFetchOnly := fun s m hfetch =>
  Symmetry.step (s := s) (fun i => symmetry_ram m i.regOperands) rfl hfetch

/-- Writes to different registers of a state commute. -/
theorem State.setReg_comm (s : State) {r q : Fin 8} (h : r ≠ q) (u v : Byte) :
    (s.setReg r u).setReg q v = (s.setReg q v).setReg r u := by
  simp only [State.setReg, Regs.set_comm s.x h]

/-- A legal operand byte with another index than `r` names another register. -/
theorem operandReg_ne {b : Byte} {r : Fin 8} (hb : b.toNat < 8) (h : b.toNat ≠ r.val) : operandReg b ≠ r := by
  rw [operandReg_of_lt hb]
  exact Fin.ne_of_val_ne h

/-- A register that no operand names can hold anything. -/
theorem symmetry_setReg {r : Fin 8} {bs : List Byte} (h : ∀ b ∈ bs, b.toNat ≠ r.val) (v : Byte) :
    Symmetry (fun t => t.setReg r v) id bs where
  pc _ := rfl
  fl _ := rfl
  setPc _ _ := rfl
  setFl _ _ := rfl
  setRun _ _ := rfl
  emit _ _ := rfl
  raiseFault _ _ _ _ := rfl
  legal _ _ h := h
  illegal _ _ _ := rfl
  getReg b hm hb _ := (State.getReg_setReg ..).trans (if_neg (operandReg_ne hb (h b hm)))
  setReg b hm hb s u := State.setReg_comm s (operandReg_ne hb (h b hm)).symm v u

/-- Settles O47: `symmetry_setReg`. -/
theorem unnamedRegisterIrrelevant : Obligations.UnnamedRegisterIrrelevant := fun i s r v h => by
  simpa using (symmetry_setReg h v).exec s

/-- Exchanging two registers in an instruction is a renaming of its operand bytes. -/
theorem swapInstr_eq_rename (r q : Fin 8) (i : Instr) : swapInstr r q i = i.rename (swapOperand r q) := by
  cases i <;> rfl

/-- What a register reads as after two were exchanged. -/
theorem State.getReg_swapRegs (s : State) (r q p : Fin 8) :
    (s.swapRegs r q).getReg p = s.getReg (Equiv.swap r q p) := by
  rw [State.swapRegs, State.getReg_setReg, State.getReg_setReg, Equiv.swap_apply_def]
  by_cases hr : p = r
  · by_cases hq : p = q <;> simp [← hr, hq]
  · by_cases hq : p = q
    · subst hq
      simp [hr]
    · simp [hr, hq]

/-- A register index written as an operand byte. -/
theorem toNat_wrap_val (r : Fin 8) : (wrap r.val).toNat = r.val :=
  (toNat_wrap _).trans (Nat.mod_eq_of_lt (by omega))

/-- A legal operand byte with two names exchanged is legal, and names the exchanged register. -/
theorem swapOperand_of_lt (r q : Fin 8) {b : Byte} (h : b.toNat < 8) :
    (swapOperand r q b).toNat = (Equiv.swap r q (operandReg b)).val := by
  rw [swapOperand, Equiv.swap_apply_def, operandReg_of_lt h]
  simp only [Fin.ext_iff]
  split
  · exact toNat_wrap_val q
  · split
    · exact toNat_wrap_val r
    · rfl

/-- An illegal operand byte names neither register. -/
theorem swapOperand_of_gt (r q : Fin 8) {b : Byte} (h : 7 < b.toNat) : swapOperand r q b = b := by
  rw [swapOperand, if_neg (by omega), if_neg (by omega)]

/-- The register that an operand byte names after the exchange. -/
theorem operandReg_swapOperand (r q : Fin 8) {b : Byte} (h : b.toNat < 8) :
    operandReg (swapOperand r q b) = Equiv.swap r q (operandReg b) := by
  have hs := swapOperand_of_lt r q h
  rw [operandReg_of_lt (hs.trans_lt (Fin.isLt _))]
  exact Fin.ext hs

/-- Exchanging two registers, after a write to one, is a write to the exchanged one. -/
theorem State.swapRegs_setReg (s : State) (r q p : Fin 8) (v : Byte) :
    (s.swapRegs r q).setReg (Equiv.swap r q p) v = (s.setReg p v).swapRegs r q := by
  have hx : ((s.swapRegs r q).setReg (Equiv.swap r q p) v).x = ((s.setReg p v).swapRegs r q).x := by
    refine Regs.ext_get fun p' => ?_
    change ((s.swapRegs r q).setReg (Equiv.swap r q p) v).getReg p' = ((s.setReg p v).swapRegs r q).getReg p'
    rw [State.getReg_setReg, State.getReg_swapRegs, State.getReg_swapRegs, State.getReg_setReg]
    simp only [Equiv.swap_apply_eq_iff]
  exact State.ext rfl hx rfl rfl rfl rfl rfl

/-- Two registers can be exchanged. -/
theorem symmetry_swapRegs (r q : Fin 8) (bs : List Byte) : Symmetry (State.swapRegs r q) (swapOperand r q) bs where
  pc _ := rfl
  fl _ := rfl
  setPc _ _ := rfl
  setFl _ _ := rfl
  setRun _ _ := rfl
  emit _ _ := rfl
  raiseFault _ _ _ _ := rfl
  legal _ _ h := (swapOperand_of_lt r q h).trans_lt (Fin.isLt _)
  illegal _ _ h := swapOperand_of_gt r q h
  getReg _ _ h s := by rw [operandReg_swapOperand r q h, State.getReg_swapRegs, Equiv.swap_apply_self]
  setReg _ _ h s v := by rw [operandReg_swapOperand r q h, State.swapRegs_setReg]

/-- Settles O48: `symmetry_swapRegs`. -/
theorem registersInterchangeable : Obligations.RegistersInterchangeable := fun i s r q => by
  rw [swapInstr_eq_rename]
  exact (symmetry_swapRegs r q i.regOperands).exec s

end Sys2Proof.Machine
end

section
/-! What crosses the boundary: the status port and the output text (spec 50 R133, R134). -/

namespace Sys2Proof.Machine

/-- Settles O16: by the three run states, and whether there is a fault record. -/
theorem statusPortReports : Obligations.StatusPortReports := by
  refine ⟨fun s a b => ⟨rfl, rfl, Option.map_eq_none_iff⟩, fun s => ?_⟩
  unfold State.exitStatus
  cases s.run <;> simp

/-- A numeral of one to three digits, by the size of the value. -/
theorem decimalDigits_cases (v : Byte) :
    (v.toNat < 10 ∧ decimalDigits v = [v.toNat]) ∨
      (10 ≤ v.toNat ∧ v.toNat < 100 ∧ decimalDigits v = [v.toNat / 10, v.toNat % 10]) ∨
      (100 ≤ v.toNat ∧ decimalDigits v = [v.toNat / 100, v.toNat / 10 % 10, v.toNat % 10]) := by
  unfold decimalDigits
  rcases Nat.lt_or_ge v.toNat 10 with h10 | h10
  · exact .inl ⟨h10, if_pos h10⟩
  · rcases Nat.lt_or_ge v.toNat 100 with h100 | h100
    · exact .inr (.inl ⟨h10, h100, (if_neg (by omega)).trans (if_pos h100)⟩)
    · exact .inr (.inr ⟨h100, (if_neg (by omega)).trans (if_neg (by omega))⟩)

/-- The numeral's value is the byte. -/
theorem foldl_decimalDigits (v : Byte) : (decimalDigits v).foldl (fun n d => 10 * n + d) 0 = v.toNat := by
  rcases decimalDigits_cases v with ⟨-, e⟩ | ⟨-, -, e⟩ | ⟨-, e⟩ <;> rw [e] <;> simp only [List.foldl] <;> omega

/-- Every digit is below 10. -/
theorem lt_of_mem_decimalDigits {v : Byte} {d : Nat} (h : d ∈ decimalDigits v) : d < 10 := by
  have hv := v.isLt
  rcases decimalDigits_cases v with ⟨h10, e⟩ | ⟨-, h100, e⟩ | ⟨-, e⟩ <;> rw [e] at h <;>
    simp only [List.mem_cons, List.not_mem_nil, or_false] at h <;> omega

/-- No leading zero: only the numeral of zero begins with the digit 0. -/
theorem decimalDigits_head_zero {v : Byte} (h : (decimalDigits v).head? = some 0) : v = 0 ∧ decimalDigits v = [0] := by
  rcases decimalDigits_cases v with ⟨-, e⟩ | ⟨h10, -, e⟩ | ⟨h100, e⟩ <;> rw [e, List.head?_cons, Option.some.injEq] at h
  · exact ⟨BitVec.eq_of_toNat_eq h, by rw [e, h]⟩
  · omega
  · omega

/-- The characters of the digits are those with codes 48 to 57. -/
theorem toNat_digitChar {d : Nat} (h : d < 10) : (digitChar d).toNat = 48 + d :=
  (Char.toNat_ofNat _).trans (if_pos (.inl (by omega)))

/-- The digits are read back from their characters. -/
theorem decimalDigits_of_chars (v : Byte) :
    ((decimalDigits v).map digitChar).map (fun c => c.toNat - 48) = decimalDigits v := by
  rw [List.map_map]
  refine (List.map_congr_left fun d hd => ?_).trans (List.map_id _)
  rw [Function.comp_apply, toNat_digitChar (lt_of_mem_decimalDigits hd), Nat.add_sub_cancel_left, id]

/-- Different values have different texts: the text gives the digits, and the digits give the value. -/
theorem decimalLine_injective {u v : Byte} (h : decimalLine u = decimalLine v) : u = v := by
  have hchars : (decimalDigits u).map digitChar = (decimalDigits v).map digitChar := List.append_cancel_right h
  have hdigits : decimalDigits u = decimalDigits v := by
    rw [← decimalDigits_of_chars u, hchars, decimalDigits_of_chars]
  exact BitVec.eq_of_toNat_eq (by rw [← foldl_decimalDigits u, hdigits, foldl_decimalDigits])

/-- Settles O17: the numeral by its three lengths, its characters, and that the text determines the value. -/
theorem outputTextIsDecimal : Obligations.OutputTextIsDecimal := by
  refine ⟨fun v => ⟨?_, foldl_decimalDigits v, fun _ => lt_of_mem_decimalDigits, decimalDigits_head_zero, rfl⟩,
    fun _ => toNat_digitChar, fun _ _ => decimalLine_injective⟩
  rcases decimalDigits_cases v with ⟨-, e⟩ | ⟨-, -, e⟩ | ⟨-, e⟩ <;> rw [e] <;> nofun

end Sys2Proof.Machine
end
